-- ==== Sys2Proof/Word.lean ====
section
/-! DEFINITION. The word types of the engine (00_scope.md R5, R6). -/

namespace Sys2Proof

/-- A register value, an address or an instruction: 32 bits, bit 31 the most significant (R5, R6). -/
abbrev Word := BitVec 32

/-- One byte of the data memory (20_memory.md R30). -/
abbrev Byte := BitVec 8

/-- A register number that has passed the range check of 10_state.md R11: `NREGS` is 32 (R5). -/
abbrev RegIdx := Fin 32

end Sys2Proof
end

