-- ==== Sys2Proof/Syntax.lean ====
section
/-! DEFINITION. The instructions: one constructor per row of spec/opcode_table.json, each with exactly the
operands of 30_encoding.md R55, in decoded order. -/

namespace Sys2Proof

/-- The fourteen instructions (00_scope.md R1). An operand is an integer, as `execute` is given it: "an ordered
sequence of decoded integer operands" (00_scope.md R9). A register operand is meant to be 0..31 and a 16-bit
operand 0..65535 (30_encoding.md R57): `Instr.wellFormed` says so; `execute` is defined on all integers
(R58, 60_exceptions.md R111; log 19). -/
inductive Instr where
  /-- ADD `[d, s, t]`, 40_integer_alu.md R71. -/
  | add (d s t : Int)
  /-- SUB `[d, s, t]`, R72. -/
  | sub (d s t : Int)
  /-- AND `[d, s, t]`, R73. -/
  | and (d s t : Int)
  /-- OR `[d, s, t]`, R74. -/
  | or (d s t : Int)
  /-- XOR `[d, s, t]`, R75. -/
  | xor (d s t : Int)
  /-- ADDI `[t, s, imm16]`, R76. -/
  | addi (t s imm16 : Int)
  /-- LD `[t, base, off16]`, 41_load_store.md R81. -/
  | ld (t base off16 : Int)
  /-- ST `[t, base, off16]`, R82. -/
  | st (t base off16 : Int)
  /-- BEQ `[s, t, target]`, 42_branch_pc.md R90. -/
  | beq (s t target : Int)
  /-- GRUB `[t, imm16]`, 43_custom_ops.md R101. -/
  | grub (t imm16 : Int)
  /-- TRIPLED `[d, s]`, R102. -/
  | tripled (d s : Int)
  /-- LOADED `[t, base, off16]`, 41_load_store.md R83. -/
  | loaded (t base off16 : Int)
  /-- DEEP `[d, s]`, 43_custom_ops.md R103. -/
  | deep (d s : Int)
  /-- PRIM `[d, s]`, R104. -/
  | prim (d s : Int)
deriving DecidableEq, Repr

end Sys2Proof
end

