-- ==== Sys2Proof/WellFormed.lean ====
section
/-! DEFINITION. Which instructions the decoder can deliver (30_encoding.md R57): register operands in
0..31, 16-bit operands in 0..65535. -/

namespace Sys2Proof

/-- A register index inside `[0, 32)` (10_state.md R11, R12). -/
def isRegIndex (n : Int) : Bool := decide (0 ≤ n) && decide (n < 32)

/-- A 16-bit field as the decoder delivers it, 0..65535 (30_encoding.md R57). -/
def isField16 (n : Int) : Bool := decide (0 ≤ n) && decide (n < 65536)

/-- Every operand lies in its field's range (30_encoding.md R57, R64). -/
def Instr.wellFormed : Instr → Bool
  | .add d s t => isRegIndex d && isRegIndex s && isRegIndex t
  | .sub d s t => isRegIndex d && isRegIndex s && isRegIndex t
  | .and d s t => isRegIndex d && isRegIndex s && isRegIndex t
  | .or d s t => isRegIndex d && isRegIndex s && isRegIndex t
  | .xor d s t => isRegIndex d && isRegIndex s && isRegIndex t
  | .addi t s imm16 => isRegIndex t && isRegIndex s && isField16 imm16
  | .ld t base off16 => isRegIndex t && isRegIndex base && isField16 off16
  | .st t base off16 => isRegIndex t && isRegIndex base && isField16 off16
  | .beq s t target => isRegIndex s && isRegIndex t && isField16 target
  | .grub t imm16 => isRegIndex t && isField16 imm16
  | .tripled d s => isRegIndex d && isRegIndex s
  | .loaded t base off16 => isRegIndex t && isRegIndex base && isField16 off16
  | .deep d s => isRegIndex d && isRegIndex s
  | .prim d s => isRegIndex d && isRegIndex s

end Sys2Proof
end

