-- ==== Sys2Proof/Decode.lean ====
section
/-! DEFINITION. Decoding a 32-bit word and encoding an instruction (30_encoding.md R50 to R64). -/

namespace Sys2Proof

/-! ### The fields of R51 to R53 -/

/-- Bits 31:26 (R50). -/
def opcodeOf (w : Word) : BitVec 6 := w.extractLsb' 26 6

/-- Bits 25:21, the position R51 calls `s`. -/
def s5Of (w : Word) : BitVec 5 := w.extractLsb' 21 5

/-- Bits 20:16, the position R51 calls `t`. -/
def t5Of (w : Word) : BitVec 5 := w.extractLsb' 16 5

/-- Bits 15:11, the position R51 calls `d`. -/
def d5Of (w : Word) : BitVec 5 := w.extractLsb' 11 5

/-- Bits 10:6, literal zeros in every R-format template (R51). -/
def unusedOf (w : Word) : BitVec 5 := w.extractLsb' 6 5

/-- Bits 5:0 (R51). -/
def functOf (w : Word) : BitVec 6 := w.extractLsb' 0 6

/-- Bits 15:0 (R52, R53). -/
def i16Of (w : Word) : BitVec 16 := w.extractLsb' 0 16

/-- A field is delivered as a non-negative integer, not sign-extended (R57). -/
def operandOf {n : Nat} (field : BitVec n) : Int := (field.toNat : Int)

/-! ### Decoding (R57) -/

/-- The R-format group, opcode 0 (R56): the unused field is literal zeros, and in the two-operand rows
bits 20:16 are too (R51, R55). -/
def decodeR (w : Word) : Option Instr :=
  let d := operandOf (d5Of w)
  let s := operandOf (s5Of w)
  let t := operandOf (t5Of w)
  if unusedOf w ≠ 0 then none
  else if functOf w = 1 then some (.add d s t)
  else if functOf w = 2 then some (.sub d s t)
  else if functOf w = 3 then some (.and d s t)
  else if functOf w = 4 then some (.or d s t)
  else if functOf w = 5 then some (.xor d s t)
  else if t5Of w ≠ 0 then none
  else if functOf w = 32 then some (.tripled d s)
  else if functOf w = 33 then some (.deep d s)
  else if functOf w = 34 then some (.prim d s)
  else none

/-- Decode of a word (R57); `none` is the illegal word of R61. -/
def decode (w : Word) : Option Instr :=
  let s := operandOf (s5Of w)
  let t := operandOf (t5Of w)
  let i := operandOf (i16Of w)
  if opcodeOf w = 0 then decodeR w
  else if opcodeOf w = 1 then some (.addi t s i)
  else if opcodeOf w = 2 then some (.ld t s i)
  else if opcodeOf w = 3 then some (.st t s i)
  else if opcodeOf w = 4 then some (.beq s t i)
  else if opcodeOf w = 16 then (if t5Of w = 0 then some (.grub s i) else none)
  else if opcodeOf w = 17 then some (.loaded t s i)
  else none

/-- The host's view of the decoder on a row of spec/opcode_table.json: the low `nbits` bits of `w` are the
instruction's, every bit above them is 0. An instruction is one 32-bit word (R50). -/
def decodeTableWord (nbits w : Nat) : Option Instr :=
  decode (BitVec.ofNat 32 (w % 2 ^ nbits))

/-! ### Encoding (R55) -/

/-- The low 5 bits of a register operand. -/
def field5 (n : Int) : BitVec 5 := BitVec.ofInt 5 n

/-- The low 16 bits of an immediate operand (R58). -/
def field16 (n : Int) : BitVec 16 := BitVec.ofInt 16 n

/-- An R-format word: opcode 0, `s`, `t`, `d`, five zeros, `funct` (R51). -/
def encodeR (s t d : BitVec 5) (funct : BitVec 6) : Word :=
  (0 : BitVec 6) ++ s ++ t ++ d ++ (0 : BitVec 5) ++ funct

/-- An I-format or I_BRANCH-format word: opcode, bits 25:21, bits 20:16, bits 15:0 (R52, R53). -/
def encodeI (opcode : BitVec 6) (hi lo : BitVec 5) (imm : BitVec 16) : Word :=
  opcode ++ hi ++ lo ++ imm

/-- The word of an instruction, row by row of R55's table. -/
def encode : Instr → Word
  | .add d s t => encodeR (field5 s) (field5 t) (field5 d) 1
  | .sub d s t => encodeR (field5 s) (field5 t) (field5 d) 2
  | .and d s t => encodeR (field5 s) (field5 t) (field5 d) 3
  | .or d s t => encodeR (field5 s) (field5 t) (field5 d) 4
  | .xor d s t => encodeR (field5 s) (field5 t) (field5 d) 5
  | .addi t s imm16 => encodeI 1 (field5 s) (field5 t) (field16 imm16)
  | .ld t base off16 => encodeI 2 (field5 base) (field5 t) (field16 off16)
  | .st t base off16 => encodeI 3 (field5 base) (field5 t) (field16 off16)
  | .beq s t target => encodeI 4 (field5 s) (field5 t) (field16 target)
  | .grub t imm16 => encodeI 16 (field5 t) 0 (field16 imm16)
  | .tripled d s => encodeR (field5 s) 0 (field5 d) 32
  | .loaded t base off16 => encodeI 17 (field5 base) (field5 t) (field16 off16)
  | .deep d s => encodeR (field5 s) 0 (field5 d) 33
  | .prim d s => encodeR (field5 s) 0 (field5 d) 34

/-! ### Names and operand lists -/

/-- The mnemonic in D0's capitals (R55). -/
def Instr.mnemonic : Instr → String
  | .add .. => "ADD"
  | .sub .. => "SUB"
  | .and .. => "AND"
  | .or .. => "OR"
  | .xor .. => "XOR"
  | .addi .. => "ADDI"
  | .ld .. => "LD"
  | .st .. => "ST"
  | .beq .. => "BEQ"
  | .grub .. => "GRUB"
  | .tripled .. => "TRIPLED"
  | .loaded .. => "LOADED"
  | .deep .. => "DEEP"
  | .prim .. => "PRIM"

/-- The decoded OperandList, in order (R55). -/
def Instr.operands : Instr → List Int
  | .add d s t => [d, s, t]
  | .sub d s t => [d, s, t]
  | .and d s t => [d, s, t]
  | .or d s t => [d, s, t]
  | .xor d s t => [d, s, t]
  | .addi t s imm16 => [t, s, imm16]
  | .ld t base off16 => [t, base, off16]
  | .st t base off16 => [t, base, off16]
  | .beq s t target => [s, t, target]
  | .grub t imm16 => [t, imm16]
  | .tripled d s => [d, s]
  | .loaded t base off16 => [t, base, off16]
  | .deep d s => [d, s]
  | .prim d s => [d, s]

/-- The register operands, in decoded order (R55; 10_state.md R15). -/
def Instr.registers : Instr → List Int
  | .add d s t => [d, s, t]
  | .sub d s t => [d, s, t]
  | .and d s t => [d, s, t]
  | .or d s t => [d, s, t]
  | .xor d s t => [d, s, t]
  | .addi t s _ => [t, s]
  | .ld t base _ => [t, base]
  | .st t base _ => [t, base]
  | .beq s t _ => [s, t]
  | .grub t _ => [t]
  | .tripled d s => [d, s]
  | .loaded t base _ => [t, base]
  | .deep d s => [d, s]
  | .prim d s => [d, s]

end Sys2Proof
end

