-- ==== Sys2Proof/Config.lean ====
section
/-! DEFINITION. The parameters of 00_scope.md R5 that a reset installs (70_reset_and_hazards.md R130), and
the free values: what the spec leaves open, as constants with no body. -/

namespace Sys2Proof

/-- `BYTE_ORDER` (20_memory.md R36). -/
inductive ByteOrder where
  | little
  | big
deriving DecidableEq, Repr

/-- The configuration of a run (00_scope.md R5, 70_reset_and_hazards.md R130): plain data, installed by
reset, changed by nothing else (10_state.md R27). -/
structure RunConfig where
  /-- `R0_HARDWIRED`: does register 0 read as zero and discard writes (10_state.md R13). -/
  r0Hardwired : Bool
  /-- `MEM_BASE`: first byte address of the data memory (20_memory.md R30). -/
  memBase : Nat
  /-- `MEM_SIZE`: byte length of the data memory (20_memory.md R30). -/
  memSize : Nat
  /-- `BYTE_ORDER` (20_memory.md R36). -/
  byteOrder : ByteOrder
  /-- `REG_RESET` (10_state.md R26). -/
  regReset : Vector Word 32
  /-- `MEM_INIT`, as (address, word) pairs: the first pair of an address counts, and an address with
  no pair has the word 0. DESIGN CHOICE, log 17: a finite list stands for the function, since the extent is finite. -/
  memInit : List (Nat × Word)
  /-- `PROG_BASE` (10_state.md R23). -/
  progBase : Word
  /-- `PROG`: the read-only program store (10_state.md R21, R23). -/
  prog : List Word
deriving DecidableEq, Repr

/-- `PROG_END`, one past the last instruction (10_state.md R23), in the integers. -/
def RunConfig.progEnd (c : RunConfig) : Nat := c.progBase.toNat + 4 * c.prog.length

/-- The constraints the spec puts on a configuration (00_scope.md R5, 10_state.md R23, 20_memory.md R30). -/
def RunConfig.wf (c : RunConfig) : Bool :=
  decide (c.memBase % 4 = 0) && decide (c.memSize % 4 = 0) && decide (c.memBase + c.memSize ≤ 2 ^ 32) &&
    decide (c.progBase.toNat % 4 = 0) && decide (c.progEnd < 2 ^ 32)

/-- The spec's example configuration EXCFG (92_eei_decisions.md) with an empty program store.
DESIGN CHOICE, logs 1 to 6: the spec leaves these parameters open. -/
def RunConfig.exampleEmpty : RunConfig where
  r0Hardwired := false
  memBase := 0
  memSize := 0x1000
  byteOrder := .little
  regReset := Vector.replicate 32 0
  memInit := []
  progBase := 0
  prog := []

/-- FREE VALUE, log 9: where several register operands of one instruction are out of range, which of them
`InvalidRegisterError` records (60_exceptions.md R111 says "the offending index" and gives no order). -/
opaque Config.offenderChoice : Instr → Nat

/-- FREE VALUE, log 10: `BADINST` of an `AddressError` where no instruction word exists (60_exceptions.md R116
asks for "the instruction word", and "operand-level drive supplies no word"). -/
opaque Config.wordlessBadInst : Instr → Word

end Sys2Proof
end

