-- ==== Sys2Proof/Machine/State.lean ====
section
/-! DEFINITION. The state of the engine (10_state.md R27), its reset value (R26), and the reasons a step
can stop. -/

namespace Sys2Proof.Machine

/-- `STATUS` (10_state.md R19); the value 3 never occurs (93_implementation_defined.md U16). -/
inductive Status where
  | running
  | halted
  | faulted
deriving DecidableEq, Repr

/-- `CAUSE` (10_state.md R19, 60_exceptions.md R116); 5 to 7 never occur (U16). -/
inductive Cause where
  | noFailure
  | invalidRegister
  | addressError
  | illegalInstruction
  | fetchError
deriving DecidableEq, Repr

/-- A failure of the instruction being executed, with what it records (60_exceptions.md R110 to R115). -/
inductive Failure where
  /-- `InvalidRegisterError` with the offending index (R111). -/
  | invalidRegister (index : Int)
  /-- `AddressError` with the effective address (R112). -/
  | addressError (addr : Word)
  /-- `IllegalInstruction` with the word (R114). -/
  | illegalInstruction (word : Word)
  /-- `FetchError` with the pc (R115). -/
  | fetchError (pc : Word)
deriving DecidableEq, Repr

/-- The data memory as bytes at addresses: addresses strictly rising, no byte 0 listed, and an unlisted
address reads as 0 (log 4). -/
abbrev Memory := List Host.Cell

/-- The complete architectural state (10_state.md R27) and the configuration that the last reset
installed (70_reset_and_hazards.md R130; log 7). -/
structure State where
  /-- What the last reset installed; constant during a run (R27). -/
  cfg : RunConfig
  /-- `x[0]` to `x[31]` (R10). Read and written through `readReg` and `writeReg` only. -/
  regs : Vector Word 32
  /-- The address of the instruction being executed (R17). -/
  pc : Word
  /-- The data memory (R21, R22). -/
  mem : Memory
  /-- `STATUS` (R19). -/
  status : Status
  /-- `CAUSE` (R19). -/
  cause : Cause
  /-- `BADADDR` (R19). -/
  badAddr : Word
  /-- `BADINST` (R19). -/
  badInst : Word
  /-- `EPC` (R19). -/
  epc : Word
deriving DecidableEq, Repr

/-- Why no step exists (42_branch_pc.md R95, 60_exceptions.md R120). Failures of an instruction are not
here: the spec describes their entry (R119), so they are next states (log 14). -/
inductive Fault where
  /-- Raised by `step` and `drive` where `STATUS` is `HALTED`: the run has ended (R96). Safe. -/
  | engineHalted
  /-- Raised by `step` and `drive` where `STATUS` is `FAULTED`: a failure is recorded and only reset
  leaves it (R119, R120). Safe. -/
  | engineFaulted
deriving DecidableEq, Repr

/-- Why the model gives no answer. -/
inductive Refusal where
  /-- Raised by an arm of `exec` whose instruction has no meaning yet. Safe. No arm raises it. -/
  | notModelled (mnemonic : String)
deriving DecidableEq, Repr

/-- The state after reset (10_state.md R26) under the spec's example configuration with an empty program
store: `pc = PROG_BASE`, `STATUS = RUNNING`, the record zero, registers `REG_RESET`, memory `MEM_INIT`.
DESIGN CHOICE, logs 1 to 6: the values of the open parameters. -/
def State.reset : State where
  cfg := RunConfig.exampleEmpty
  regs := Vector.replicate 32 0
  pc := 0
  mem := []
  status := .running
  cause := .noFailure
  badAddr := 0
  badInst := 0
  epc := 0

end Sys2Proof.Machine
end

