-- ==== Sys2Proof/Machine/Operands.lean ====
section
/-! DEFINITION. Int forms: the register-index check, the three uses of the 16-bit field
(30_encoding.md R58), the effective address (20_memory.md R37), the branch resolver (42_branch_pc.md R93),
and the value functions of the custom operations (43_custom_ops.md). -/

namespace Sys2Proof.Machine

/-! ### Register operands -/

/-- The range check of 10_state.md R11 and R12. -/
def toRegIdx? (n : Int) : Option RegIdx :=
  if h : 0 ≤ n ∧ n < 32 then some ⟨n.toNat, by omega⟩ else none

/-- The register operands of `i` that lie outside `[0, 32)`, in decoded order. -/
def badRegisters (i : Instr) : List Int := i.registers.filter (fun n => !isRegIndex n)

/-- The index `InvalidRegisterError` records (60_exceptions.md R111): the offending one; where several
offend, a FREE VALUE picks one of them (log 9). -/
def reportedIndex (i : Instr) : Int :=
  match badRegisters i with
  | [] => 0
  | [n] => n
  | n :: rest => (n :: rest).getD (Config.offenderChoice i % (n :: rest).length) n

/-! ### Immediates (30_encoding.md R58) -/

/-- `sext_32` of a 16-bit operand (R58 a); of a wider integer the low 16 bits are used. -/
def sext32 (v : Int) : Word := (field16 v).signExtend 32

/-- GRUB's immediate: the low 8 bits, zero-extended (R58 b, 43_custom_ops.md R101). -/
def low8 (v : Int) : Word := (field16 v &&& 0x00FF).setWidth 32

/-- BEQ's target as it reaches `RequestBranch`: a decoded 16-bit operand unchanged, of a wider integer the low
16 bits (R58 c and its last sentence; a negative integer is DEDUCED, log 19). -/
def branchOperand (v : Int) : Int := ((field16 v).toNat : Int)

/-! ### Addresses -/

/-- The effective address `(x[base] + sext_32(off16)) mod 2^32` (20_memory.md R37). -/
def effectiveAddress (base : Word) (off16 : Int) : Word := base + sext32 off16

/-- `BRANCH_RESOLVE(pc, v)` (42_branch_pc.md R93): a signed count of instructions relative to the next one.
DESIGN CHOICE, log 8: the parameter at the value the spec decides. -/
def branchResolve (pc : Word) (v : Int) : Word := pc + 4 + (sext32 v <<< 2)

/-! ### Value functions (00_scope.md R7, 43_custom_ops.md) -/

/-- `rev32`: bit `i` of the result is bit `31 - i` of the source (43_custom_ops.md R103). -/
def rev32 (v : Word) : Word := v.reverse

/-- No odd `k` among the `2 ^ depth` candidates `start, start + 2, …` with `k * k ≤ n` divides `n`
(43_custom_ops.md R104's procedure, the candidates cut in halves). -/
def noOddDivisor (n : Nat) : (depth : Nat) → (start : Nat) → Bool
  | 0, k => decide (n < k * k) || decide (n % k ≠ 0)
  | depth + 1, k =>
    if n < k * k then true
    else noOddDivisor n depth k && noOddDivisor n depth (k + 2 ^ (depth + 1))

/-- `is_prime` (00_scope.md R7) on the integers below `2 ^ 32`, by R104's procedure: at most 1 is not prime,
2 is, other even numbers are not, odd ones are tried up to the square root. `isPrime_iff` in
Laws/Operands.lean shows it is R7's definition. -/
def isPrime (n : Int) : Bool :=
  decide (2 ≤ n) && (decide (n = 2) || (decide (n % 2 ≠ 0) && noOddDivisor n.toNat 15 3))

/-- PRIM's result: the verdict on the signed value (43_custom_ops.md R104). -/
def primeFlag (v : Word) : Word := if isPrime v.toInt then 1 else 0

end Sys2Proof.Machine
end

