-- ==== Sys2Proof/Machine/Ops.lean ====
section
/-! DEFINITION. The named operations over registers and memory, sequencing, and fault entry. -/

namespace Sys2Proof.Machine

/-! ### The register file (10_state.md R10 to R13) -/

/-- `x[i]` for an index in range (R11); register 0 reads as zero where it is hardwired (R13). -/
def State.readReg (m : State) (r : RegIdx) : Word :=
  if m.cfg.r0Hardwired = true ∧ r = 0 then 0 else m.regs[r]

/-- `x[i] <- v` for an index in range (R12); a hardwired register 0 discards the write (R13). -/
def State.writeReg (m : State) (r : RegIdx) (v : Word) : State :=
  if m.cfg.r0Hardwired = true ∧ r = 0 then m else { m with regs := m.regs.set r v }

/-- D0's `getValue(regIndex)` (R11). -/
def State.getValue (m : State) (n : Int) : Except Failure Word :=
  match toRegIdx? n with
  | some r => .ok (m.readReg r)
  | none => .error (.invalidRegister n)

/-- D0's `updateRegister(regIndex, v)` (R12). -/
def State.updateRegister (m : State) (n : Int) (v : Word) : Except Failure State :=
  match toRegIdx? n with
  | some r => .ok (m.writeReg r v)
  | none => .error (.invalidRegister n)

/-! ### Bytes of the data memory -/

/-- The byte at an address; an unlisted address reads as 0 (log 4). -/
def Memory.readByte : Memory → Nat → Byte
  | [], _ => 0
  | (b, v) :: rest, a => if a < b then 0 else if a = b then v else Memory.readByte rest a

/-- Write one byte, keeping the addresses rising and listing no 0. -/
def Memory.writeByte : Memory → Nat → Byte → Memory
  | [], a, x => if x = 0 then [] else [(a, x)]
  | (b, v) :: rest, a, x =>
    if a < b then (if x = 0 then (b, v) :: rest else (a, x) :: (b, v) :: rest)
    else if a = b then (if x = 0 then rest else (a, x) :: rest)
    else (b, v) :: Memory.writeByte rest a x

/-- The canonical form: addresses strictly rising, no byte equal to what an unlisted address reads as. -/
def Memory.wf : Memory → Bool
  | [] => true
  | (a, v) :: rest => decide (v ≠ 0) && rest.all (fun c => decide (a < c.1)) && Memory.wf rest

/-! ### Words of the data memory (20_memory.md R36) -/

/-- The four bytes of a word, lowest address first (R36). -/
def wordBytes (o : ByteOrder) (v : Word) : Byte × Byte × Byte × Byte :=
  let b0 := v.extractLsb' 0 8
  let b1 := v.extractLsb' 8 8
  let b2 := v.extractLsb' 16 8
  let b3 := v.extractLsb' 24 8
  match o with
  | .little => (b0, b1, b2, b3)
  | .big => (b3, b2, b1, b0)

/-- The word of four bytes, lowest address first (R36). -/
def bytesWord (o : ByteOrder) (p q r s : Byte) : Word :=
  match o with
  | .little => s ++ r ++ q ++ p
  | .big => p ++ q ++ r ++ s

/-- The word at an address, no check made. -/
def Memory.readWord (mem : Memory) (o : ByteOrder) (a : Nat) : Word :=
  bytesWord o (mem.readByte a) (mem.readByte (a + 1)) (mem.readByte (a + 2)) (mem.readByte (a + 3))

/-- Store all four bytes of a word, no check made (R31: no partial write). -/
def Memory.writeWord (mem : Memory) (o : ByteOrder) (a : Nat) (v : Word) : Memory :=
  let b := wordBytes o v
  (((mem.writeByte a b.1).writeByte (a + 1) b.2.1).writeByte (a + 2) b.2.2.1).writeByte (a + 3) b.2.2.2

/-- The alignment and bounds check of 20_memory.md R32 and R33, in the integers: no wrap. -/
def legalWord (c : RunConfig) (a : Nat) : Bool :=
  decide (a % 4 = 0) && decide (c.memBase ≤ a) && decide (a + 4 ≤ c.memBase + c.memSize)

/-- The state with another data memory. -/
def State.withMem (m : State) (mem : Memory) : State := { m with mem := mem }

/-- D0's `getWord(addr)`, `MemRead(addr, 4)` (20_memory.md R34). -/
def State.getWord (m : State) (addr : Word) : Except Failure Word :=
  if legalWord m.cfg addr.toNat then .ok (m.mem.readWord m.cfg.byteOrder addr.toNat)
  else .error (.addressError addr)

/-- D0's `setWord(addr, v)`, `MemWrite(addr, 4, v)` (20_memory.md R35). -/
def State.setWord (m : State) (addr v : Word) : Except Failure State :=
  if legalWord m.cfg addr.toNat then
    .ok (m.withMem (m.mem.writeWord m.cfg.byteOrder addr.toNat v))
  else .error (.addressError addr)

/-! ### What `execute` answers -/

/-- D0's ExecutionOutcome (00_scope.md R9): completion with the state the instruction leaves and the branch
it requested, if any (42_branch_pc.md R91), or a failure. The pc is not yet written. -/
inductive ExecutionOutcome where
  | completed (m : State) (request : Option Int)
  | failed (f : Failure)
deriving DecidableEq, Repr

/-- Check one register operand, then run (60_exceptions.md R111: all indices before any access). -/
def withRegs1 (i : Instr) (a : Int) (run : RegIdx → ExecutionOutcome) : ExecutionOutcome :=
  match toRegIdx? a with
  | some a => run a
  | none => .failed (.invalidRegister (reportedIndex i))

/-- Check two register operands, then run (R111). -/
def withRegs2 (i : Instr) (a b : Int) (run : RegIdx → RegIdx → ExecutionOutcome) :
    ExecutionOutcome :=
  match toRegIdx? a, toRegIdx? b with
  | some a, some b => run a b
  | _, _ => .failed (.invalidRegister (reportedIndex i))

/-- Check three register operands, then run (R111). -/
def withRegs3 (i : Instr) (a b c : Int) (run : RegIdx → RegIdx → RegIdx → ExecutionOutcome) :
    ExecutionOutcome :=
  match toRegIdx? a, toRegIdx? b, toRegIdx? c with
  | some a, some b, some c => run a b c
  | _, _, _ => .failed (.invalidRegister (reportedIndex i))

/-- `x[d] <- f(x[s], x[t])`: both sources are read before the one write (40_integer_alu.md R70 d). -/
def regReg (i : Instr) (d s t : Int) (f : Word → Word → Word) (m : State) : ExecutionOutcome :=
  withRegs3 i d s t fun d s t => .completed (m.writeReg d (f (m.readReg s) (m.readReg t))) none

/-- `x[d] <- f(x[s])` (40_integer_alu.md R70 d, 43_custom_ops.md R100). -/
def regOne (i : Instr) (d s : Int) (f : Word → Word) (m : State) : ExecutionOutcome :=
  withRegs2 i d s fun d s => .completed (m.writeReg d (f (m.readReg s))) none

/-- `x[t] <- f(MemRead(x[base] + sext_32(off16), 4))`: the access precedes the write and a failing access
prevents it (41_load_store.md R80 e, f). -/
def loadWord (i : Instr) (t base off16 : Int) (f : Word → Word) (m : State) : ExecutionOutcome :=
  withRegs2 i t base fun t base =>
    match m.getWord (effectiveAddress (m.readReg base) off16) with
    | .ok v => .completed (m.writeReg t (f v)) none
    | .error e => .failed e

/-! ### Sequencing (42_branch_pc.md R92) -/

/-- The pc after an instruction that completes. -/
def nextPc (pc : Word) (request : Option Int) : Word :=
  match request with
  | some v => branchResolve pc v
  | none => pc + 4

/-- R92 applied to the state a completed instruction leaves. -/
def State.sequence (m : State) (request : Option Int) : State :=
  { m with pc := nextPc m.pc request }

/-- The end of a run: `STATUS <- HALTED`, nothing else (42_branch_pc.md R95, R96). -/
def State.halt (m : State) : State := { m with status := .halted }

/-! ### Fault entry (60_exceptions.md R116, R119) -/

/-- `CAUSE` of a failure (R116). -/
def Failure.cause : Failure → Cause
  | .invalidRegister _ => .invalidRegister
  | .addressError _ => .addressError
  | .illegalInstruction _ => .illegalInstruction
  | .fetchError _ => .fetchError

/-- `BADADDR` of a failure (R116): of an index its low 32 bits. -/
def Failure.badAddr : Failure → Word
  | .invalidRegister n => BitVec.ofInt 32 n
  | .addressError a => a
  | .illegalInstruction _ => 0
  | .fetchError pc => pc

/-- `BADINST` of a failure (R116); `word` is the instruction word of an `AddressError`. -/
def Failure.badInst (word : Word) : Failure → Word
  | .invalidRegister _ => 0
  | .addressError _ => word
  | .illegalInstruction w => w
  | .fetchError _ => 0

/-- Fault entry (R119): the record is written, `EPC` is the pc of the instruction that failed, and nothing
else changes: registers, memory and pc stay (R117, 42_branch_pc.md R98). -/
def State.enterFault (m : State) (f : Failure) (word : Word) : State :=
  { m with
    status := .faulted
    cause := f.cause
    badAddr := f.badAddr
    badInst := f.badInst word
    epc := m.pc }

/-- There is no return from a fault (60_exceptions.md R120): only reset leaves it, `hostReset` in
Machine/Collaborator.lean. -/
def State.stopped (m : State) : Option Fault :=
  match m.status with
  | .running => none
  | .halted => some .engineHalted
  | .faulted => some .engineFaulted

/-- The word of the instruction that is executing. For an instruction a word decodes to, that word
(`encode` is the inverse of `decode`, 30_encoding.md R55, R57; DEDUCED, log 16); no word has ill-formed operands,
and there a FREE VALUE stands (log 10). -/
def instructionWord (i : Instr) : Word :=
  if i.wellFormed then encode i else Config.wordlessBadInst i

/-- The instruction cycle's end (42_branch_pc.md R95): R92 on completion, fault entry on failure, with the
registers and memory as before the instruction (R117). -/
def conclude (i : Instr) (m : State) (o : ExecutionOutcome) : Host.Outcome State Fault Refusal :=
  match o with
  | .completed m' request => .next (m'.sequence request)
  | .failed f => .next (m.enterFault f (instructionWord i))

end Sys2Proof.Machine
end

