-- ==== Sys2Proof/Machine/Alu.lean ====
section
/-! DEFINITION. Integer arithmetic and logic (40_integer_alu.md). `sem<X>` is D0's semantic function of the
instruction; `exec<X>` is its execution in the instruction cycle. -/

namespace Sys2Proof.Machine

/-- `x[d] <- (x[s] + x[t]) mod 2^32` (R71). -/
def semAdd (d s t : Int) (m : State) : ExecutionOutcome :=
  regReg (.add d s t) d s t (fun a b => a + b) m

/-- ADD (R71). -/
def execAdd (d s t : Int) (m : State) : Host.Outcome State Fault Refusal :=
  conclude (.add d s t) m (semAdd d s t m)

/-- `x[d] <- (x[s] - x[t]) mod 2^32` (R72). -/
def semSub (d s t : Int) (m : State) : ExecutionOutcome :=
  regReg (.sub d s t) d s t (fun a b => a - b) m

/-- SUB (R72). -/
def execSub (d s t : Int) (m : State) : Host.Outcome State Fault Refusal :=
  conclude (.sub d s t) m (semSub d s t m)

/-- `x[d] <- x[s] & x[t]` (R73). -/
def semAnd (d s t : Int) (m : State) : ExecutionOutcome :=
  regReg (.and d s t) d s t (fun a b => a &&& b) m

/-- AND (R73). -/
def execAnd (d s t : Int) (m : State) : Host.Outcome State Fault Refusal :=
  conclude (.and d s t) m (semAnd d s t m)

/-- `x[d] <- x[s] | x[t]` (R74). -/
def semOr (d s t : Int) (m : State) : ExecutionOutcome :=
  regReg (.or d s t) d s t (fun a b => a ||| b) m

/-- OR (R74). -/
def execOr (d s t : Int) (m : State) : Host.Outcome State Fault Refusal :=
  conclude (.or d s t) m (semOr d s t m)

/-- `x[d] <- x[s] ^ x[t]` (R75). -/
def semXor (d s t : Int) (m : State) : ExecutionOutcome :=
  regReg (.xor d s t) d s t (fun a b => a ^^^ b) m

/-- XOR (R75). -/
def execXor (d s t : Int) (m : State) : Host.Outcome State Fault Refusal :=
  conclude (.xor d s t) m (semXor d s t m)

/-- `x[t] <- (x[s] + sext_32(imm16)) mod 2^32` (R76). -/
def semAddi (t s imm16 : Int) (m : State) : ExecutionOutcome :=
  regOne (.addi t s imm16) t s (fun a => a + sext32 imm16) m

/-- ADDI (R76). -/
def execAddi (t s imm16 : Int) (m : State) : Host.Outcome State Fault Refusal :=
  conclude (.addi t s imm16) m (semAddi t s imm16 m)

end Sys2Proof.Machine
end

