-- ==== Sys2Proof/Machine/Branch.lean ====
section
/-! DEFINITION. Control transfer (42_branch_pc.md R90, R91): the only request comes from BEQ. -/

namespace Sys2Proof.Machine

/-- `if x[s] = x[t]: RequestBranch(target)` (R90): the decoded operand is passed with no arithmetic on it (R91); of an
integer wider than 16 bits its low 16 bits are the operand (30_encoding.md R58). -/
def semBeq (s t target : Int) (m : State) : ExecutionOutcome :=
  withRegs2 (.beq s t target) s t fun s t =>
    .completed m (if m.readReg s = m.readReg t then some (branchOperand target) else none)

/-- BEQ (R90). -/
def execBeq (s t target : Int) (m : State) : Host.Outcome State Fault Refusal :=
  conclude (.beq s t target) m (semBeq s t target m)

end Sys2Proof.Machine
end

