-- ==== Sys2Proof/Machine/Custom.lean ====
section
/-! DEFINITION. The custom operations (43_custom_ops.md R100 to R104). -/

namespace Sys2Proof.Machine

/-- `x[t] <- zext_32(imm16 & 0x00FF)` (R101); no register is read. -/
def semGrub (t imm16 : Int) (m : State) : ExecutionOutcome :=
  withRegs1 (.grub t imm16) t fun t => .completed (m.writeReg t (low8 imm16)) none

/-- GRUB (R101). -/
def execGrub (t imm16 : Int) (m : State) : Host.Outcome State Fault Refusal :=
  conclude (.grub t imm16) m (semGrub t imm16 m)

/-- `x[d] <- (x[s] * 3) mod 2^32` (R102). -/
def semTripled (d s : Int) (m : State) : ExecutionOutcome :=
  regOne (.tripled d s) d s (fun a => a * 3) m

/-- TRIPLED (R102). -/
def execTripled (d s : Int) (m : State) : Host.Outcome State Fault Refusal :=
  conclude (.tripled d s) m (semTripled d s m)

/-- `x[d] <- rev32(x[s])` (R103). -/
def semDeep (d s : Int) (m : State) : ExecutionOutcome :=
  regOne (.deep d s) d s rev32 m

/-- DEEP (R103). -/
def execDeep (d s : Int) (m : State) : Host.Outcome State Fault Refusal :=
  conclude (.deep d s) m (semDeep d s m)

/-- `x[d] <- 1 if is_prime(signed(x[s])) else 0` (R104). -/
def semPrim (d s : Int) (m : State) : ExecutionOutcome :=
  regOne (.prim d s) d s primeFlag m

/-- PRIM (R104). -/
def execPrim (d s : Int) (m : State) : Host.Outcome State Fault Refusal :=
  conclude (.prim d s) m (semPrim d s m)

end Sys2Proof.Machine
end

