-- ==== Sys2Proof/Machine/LoadStore.lean ====
section
/-! DEFINITION. Loads and stores (41_load_store.md R80 to R84). -/

namespace Sys2Proof.Machine

/-- `x[t] <- MemRead(addr, 4)` (R81). -/
def semLd (t base off16 : Int) (m : State) : ExecutionOutcome :=
  loadWord (.ld t base off16) t base off16 (fun v => v) m

/-- LD (R81). -/
def execLd (t base off16 : Int) (m : State) : Host.Outcome State Fault Refusal :=
  conclude (.ld t base off16) m (semLd t base off16 m)

/-- `MemWrite(addr, 4, x[t])` (R82). -/
def semSt (t base off16 : Int) (m : State) : ExecutionOutcome :=
  withRegs2 (.st t base off16) t base fun t base =>
    match m.setWord (effectiveAddress (m.readReg base) off16) (m.readReg t) with
    | .ok m' => .completed m' none
    | .error e => .failed e

/-- ST (R82). -/
def execSt (t base off16 : Int) (m : State) : Host.Outcome State Fault Refusal :=
  conclude (.st t base off16) m (semSt t base off16 m)

/-- `x[t] <- MemRead(addr, 4) | 0x80000000` (R83). -/
def semLoaded (t base off16 : Int) (m : State) : ExecutionOutcome :=
  loadWord (.loaded t base off16) t base off16 (fun v => v ||| 0x80000000) m

/-- LOADED (R83). -/
def execLoaded (t base off16 : Int) (m : State) : Host.Outcome State Fault Refusal :=
  conclude (.loaded t base off16) m (semLoaded t base off16 m)

end Sys2Proof.Machine
end

