-- ==== Sys2Proof/Machine/Dispatch.lean ====
section
/-! DEFINITION. The dispatch of an instruction to its meaning: the line "run the rule of `mnemonic` on
`operands`" of 42_branch_pc.md R95 with the two lines after it. -/

namespace Sys2Proof.Machine

def exec (i : Instr) (m : State) : Host.Outcome State Fault Refusal :=
  match i with
  | .add d s t => Sys2Proof.Machine.execAdd d s t m
  | .sub d s t => Sys2Proof.Machine.execSub d s t m
  | .and d s t => Sys2Proof.Machine.execAnd d s t m
  | .or d s t => Sys2Proof.Machine.execOr d s t m
  | .xor d s t => Sys2Proof.Machine.execXor d s t m
  | .addi t s imm16 => Sys2Proof.Machine.execAddi t s imm16 m
  | .ld t base off16 => Sys2Proof.Machine.execLd t base off16 m
  | .st t base off16 => Sys2Proof.Machine.execSt t base off16 m
  | .beq s t target => Sys2Proof.Machine.execBeq s t target m
  | .grub t imm16 => Sys2Proof.Machine.execGrub t imm16 m
  | .tripled d s => Sys2Proof.Machine.execTripled d s m
  | .loaded t base off16 => Sys2Proof.Machine.execLoaded t base off16 m
  | .deep d s => Sys2Proof.Machine.execDeep d s m
  | .prim d s => Sys2Proof.Machine.execPrim d s m

end Sys2Proof.Machine
end

