-- ==== Sys2Proof/Machine/Fetch.lean ====
section
/-! DEFINITION. The instruction cycle up to the execution of an instruction (42_branch_pc.md R95 to R97):
the stop check, the end of the run, fetch and decode. -/

namespace Sys2Proof.Machine

/-- `Fetch(pc)` (R97): the program store only, never the data memory (20_memory.md R43). -/
def fetch (c : RunConfig) (pc : Word) : Except Failure Word :=
  if pc.toNat % 4 = 0 ∧ c.progBase.toNat ≤ pc.toNat ∧ pc.toNat < c.progEnd then
    .ok (c.prog.getD ((pc.toNat - c.progBase.toNat) / 4) 0)
  else .error (.fetchError pc)

/-- What the cycle does before an instruction executes. -/
inductive Supply where
  /-- No step exists (R95, 60_exceptions.md R120). -/
  | stop (f : Fault)
  /-- The step ends here: the run is over, or fetch or decode failed. -/
  | settle (m : State)
  /-- The fetched word decodes to this instruction. -/
  | run (i : Instr)
deriving DecidableEq, Repr

/-- R95's lines before "run the rule", in its order, which is also the priority of the failures
(60_exceptions.md R118). STATUS is checked here and by `drive`, not by the instructions (log 15). -/
def supply (m : State) : Supply :=
  match m.stopped with
  | some f => .stop f
  | none =>
    if m.pc.toNat = m.cfg.progEnd then .settle m.halt
    else
      match fetch m.cfg m.pc with
      | .error f => .settle (m.enterFault f 0)
      | .ok w =>
        match decode w with
        | none => .settle (m.enterFault (.illegalInstruction w) w)
        | some i => .run i

/-- The program store with `w` at the word the pc names: the word there is replaced, or `w` is added where the
pc is the store's end. -/
def placeWord (c : RunConfig) (pc w : Word) : RunConfig :=
  let k := (pc.toNat - c.progBase.toNat) / 4
  { c with prog := c.prog.take k ++ [w] ++ c.prog.drop (k + 1) }

/-- Is the pc aligned with the store and inside it or at its end. -/
def pcInStore (c : RunConfig) (pc : Word) : Bool :=
  decide (pc.toNat % 4 = 0) && decide (c.progBase.toNat % 4 = 0) && decide (c.progBase.toNat ≤ pc.toNat) &&
    decide (pc.toNat ≤ c.progEnd)

end Sys2Proof.Machine
end

