-- ==== Sys2Proof/Machine/Step.lean ====
section
/-! DEFINITION. One step of the engine (42_branch_pc.md R95). -/

namespace Sys2Proof.Machine

/-- `step()` (R95). -/
def step (m : State) : Host.Outcome State Fault Refusal :=
  match supply m with
  | .stop f => .fault f
  | .settle m' => .next m'
  | .run i => exec i m

/-- The state with the instruction word `w` placed where `step` fetches next (log 5): the engine is set
running, and the program store holds `w` at the pc. Where the pc lies outside the store, the store becomes
the one word `w` at the pc, and a misaligned pc is rounded down first, since no word can be fetched there
(42_branch_pc.md R97). It stands for the host's load of a program (70_reset_and_hazards.md R130). -/
def State.withFetchWord (m : State) (nbits w : Nat) : State :=
  let word : Word := BitVec.ofNat 32 (w % 2 ^ nbits)
  if pcInStore m.cfg m.pc then
    { m with status := .running, cfg := placeWord m.cfg m.pc word }
  else
    let pc : Word := BitVec.ofNat 32 (m.pc.toNat - m.pc.toNat % 4)
    { m with status := .running, pc := pc, cfg := { m.cfg with progBase := pc, prog := [word] } }

end Sys2Proof.Machine
end

