-- ==== Sys2Proof/Machine/Catalog.lean ====
section
/-! DEFINITION. The Instruction Catalog: templates, descriptors, `register` and `populate`
(30_encoding.md R54, R55, R57, R60). It is a constant of the hardware (10_state.md R24); `decode` hard-codes it. -/

namespace Sys2Proof.Machine

/-- The format tags (R50). -/
inductive Format where
  | rFormat
  | iFormat
  | iBranchFormat
deriving DecidableEq, Repr

/-- The placeholder letters: `f` marks the first operand of the OperandList, `s` the second, `t` the third
(R54). -/
inductive Letter where
  | f
  | s
  | t
deriving DecidableEq, Repr

/-- One character of a template (R54). -/
inductive TemplateBit where
  | lit (b : Bool)
  | ph (l : Letter)
deriving DecidableEq, Repr

/-- An InstructionDescriptor (00_scope.md R9) without its semantic function (`perform` in
Machine/Collaborator.lean) and without the usage and description strings, whose text no source gives
(00_scope.md R4 e). -/
structure Descriptor where
  mnemonic : String
  format : Format
  /-- 32 characters, bit 31 first (R54). -/
  template : List TemplateBit
deriving DecidableEq, Repr

/-- `n` literal bits holding `v`, high bit first. -/
def litBits : (n v : Nat) → List TemplateBit
  | 0, _ => []
  | n + 1, v => .lit (v.testBit n) :: litBits n v

/-- `n` placeholders with one letter. -/
def phBits (n : Nat) (l : Letter) : List TemplateBit := List.replicate n (.ph l)

/-- The mask: 1 at every literal position (R55). -/
def templateMask : List TemplateBit → Word
  | [] => 0
  | .lit _ :: rest => (1 <<< rest.length) ||| templateMask rest
  | .ph _ :: rest => templateMask rest

/-- The match: the literal bits (R55). -/
def templateMatch : List TemplateBit → Word
  | [] => 0
  | .lit b :: rest => (if b then 1 <<< rest.length else 0) ||| templateMatch rest
  | .ph _ :: rest => templateMatch rest

/-- A word matches a descriptor when it has every literal bit (R54, R55). -/
def Descriptor.matchesWord (d : Descriptor) (w : Word) : Bool :=
  w &&& templateMask d.template == templateMatch d.template

/-- The bits of `w` under one letter, "taken together from high to low" (R54). -/
def bitsUnder (w : Word) (l : Letter) : List TemplateBit → Nat → Nat
  | [], acc => acc
  | b :: rest, acc =>
    bitsUnder w l rest (if b = .ph l then 2 * acc + (w.getLsbD rest.length).toNat else acc)

/-- The decoded OperandList by the template's letters (R54). -/
def Descriptor.operandsOf (d : Descriptor) (w : Word) : List Int :=
  ([Letter.f, .s, .t].filter fun l => d.template.contains (.ph l)).map
    fun l => (bitsUnder w l d.template 0 : Int)

/-- The shape of ADD's row, three-operand R format (R51, R55). -/
def templateR3 (funct : Nat) : List TemplateBit :=
  litBits 6 0 ++ phBits 5 .s ++ phBits 5 .t ++ phBits 5 .f ++ litBits 5 0 ++ litBits 6 funct

/-- The shape of TRIPLED's row, two-operand R format (R51, R55). -/
def templateR2 (funct : Nat) : List TemplateBit :=
  litBits 6 0 ++ phBits 5 .s ++ litBits 5 0 ++ phBits 5 .f ++ litBits 5 0 ++ litBits 6 funct

/-- The shape of ADDI's row, three-operand I format (R52, R55). -/
def templateI3 (opcode : Nat) : List TemplateBit :=
  litBits 6 opcode ++ phBits 5 .s ++ phBits 5 .f ++ phBits 16 .t

/-- BEQ's row with the letters as 90_conflicts.md C1 corrects them (R55). -/
def templateBeq : List TemplateBit :=
  litBits 6 4 ++ phBits 5 .f ++ phBits 5 .s ++ phBits 16 .t

/-- GRUB's row: the register in bits 25:21, bits 20:16 literal zeros (R55; 90_conflicts.md C5). -/
def templateGrub : List TemplateBit :=
  litBits 6 16 ++ phBits 5 .f ++ litBits 5 0 ++ phBits 16 .s

/-- The fourteen descriptors in D0's order (R55). -/
def instructionSet : List Descriptor :=
  [⟨"ADD", .rFormat, templateR3 1⟩, ⟨"SUB", .rFormat, templateR3 2⟩, ⟨"AND", .rFormat, templateR3 3⟩,
   ⟨"OR", .rFormat, templateR3 4⟩, ⟨"XOR", .rFormat, templateR3 5⟩, ⟨"ADDI", .iFormat, templateI3 1⟩,
   ⟨"LD", .iFormat, templateI3 2⟩, ⟨"ST", .iFormat, templateI3 3⟩, ⟨"BEQ", .iBranchFormat, templateBeq⟩,
   ⟨"GRUB", .iFormat, templateGrub⟩, ⟨"TRIPLED", .rFormat, templateR2 32⟩, ⟨"LOADED", .iFormat, templateI3 17⟩,
   ⟨"DEEP", .rFormat, templateR2 33⟩, ⟨"PRIM", .rFormat, templateR2 34⟩]

/-! ### Construction (R60) -/

/-- `DuplicateEncodingError` (60_exceptions.md R113): raised at construction, it has no cause code and no
place in a run. -/
inductive CatalogError where
  | duplicateEncoding
deriving DecidableEq, Repr

/-- Two templates collide (R60): their literal bits agree wherever both have one. -/
def Descriptor.collides (a b : Descriptor) : Bool :=
  templateMatch a.template &&& templateMask a.template &&& templateMask b.template ==
    templateMatch b.template &&& templateMask a.template &&& templateMask b.template

/-- `register(descriptor)` (R60). -/
def register (cat : List Descriptor) (d : Descriptor) : Except CatalogError (List Descriptor) :=
  if cat.any (fun e => d.collides e) then .error .duplicateEncoding else .ok (cat ++ [d])

/-- Register a list in order, stopping at the first failure. -/
def registerAll : List Descriptor → List Descriptor → Except CatalogError (List Descriptor)
  | cat, [] => .ok cat
  | cat, d :: rest =>
    match register cat d with
    | .ok cat' => registerAll cat' rest
    | .error e => .error e

/-- `populate()` (R60): registers exactly the instruction set. -/
def populate (cat : List Descriptor) : Except CatalogError (List Descriptor) :=
  registerAll cat instructionSet

/-- Decode as D0's collaborator does it (R57): query the catalog for a matching descriptor and read the
operands off its template. -/
def catalogDecode (w : Word) : Option (String × List Int) :=
  (instructionSet.find? fun d => d.matchesWord w).map fun d => (d.mnemonic, d.operandsOf w)

end Sys2Proof.Machine
end

