-- ==== Sys2Proof/Machine/Collaborator.lean ====
section
/-! DEFINITION. The host's side of the engine (70_reset_and_hazards.md R136): configure and reset, read the
results, and the operand-level drive. The host has no move during a run (R137, log 13). -/

namespace Sys2Proof.Machine

/-! ### Configure and reset (R130) -/

/-- `MEM_INIT(a)` (10_state.md R22): the first pair of the address counts, no pair is the word 0 (log 17). -/
def memInitWord (c : RunConfig) (a : Nat) : Word :=
  match c.memInit.find? (fun p => p.1 = a) with
  | some p => p.2
  | none => 0

/-- The data memory after reset (10_state.md R26): every aligned in-extent word holds `MEM_INIT`. -/
def initialMemory (c : RunConfig) : Memory :=
  c.memInit.foldr
    (fun p mem => if legalWord c p.1 then Memory.writeWord mem c.byteOrder p.1 p.2 else mem) []

/-- The registers after reset (10_state.md R26): `REG_RESET`, with `x[0]` zero where it is hardwired. -/
def initialRegs (c : RunConfig) : Vector Word 32 :=
  if c.r0Hardwired then c.regReset.set 0 0 else c.regReset

/-- Reset (R130): installs the configuration and sets every piece of state; nothing of the old state
survives. An ill-formed configuration is installed as it is (log 18). -/
def hostReset (c : RunConfig) : State where
  cfg := c
  regs := initialRegs c
  pc := c.progBase
  mem := initialMemory c
  status := .running
  cause := .noFailure
  badAddr := 0
  badInst := 0
  epc := 0

/-! ### Reading the results (R136, IF-STATUS of 00_scope.md R8) -/

/-- The number of a `STATUS` value (10_state.md R19). -/
def Status.code : Status → BitVec 2
  | .running => 0
  | .halted => 1
  | .faulted => 2

/-- The number of a cause (60_exceptions.md R116). -/
def Cause.code : Cause → BitVec 3
  | .noFailure => 0
  | .invalidRegister => 1
  | .addressError => 2
  | .illegalInstruction => 3
  | .fetchError => 4

/-- The engine status record as the host reads it (10_state.md R19). -/
structure StatusRecord where
  status : BitVec 2
  cause : BitVec 3
  badAddr : Word
  badInst : Word
  epc : Word
deriving DecidableEq, Repr

/-- The record of a state (10_state.md R19). -/
def State.record (m : State) : StatusRecord where
  status := m.status.code
  cause := m.cause.code
  badAddr := m.badAddr
  badInst := m.badInst
  epc := m.epc

/-- The results may be read where the run has stopped (R136). -/
def State.readable (m : State) : Bool := decide (m.status ≠ .running)

/-- The host reads a register; `none` during a run (R136). -/
def hostReadRegister (m : State) (n : Int) : Option (Except Failure Word) :=
  if m.readable then some (m.getValue n) else none

/-- The host reads a memory word; `none` during a run (R136). -/
def hostReadWord (m : State) (addr : Word) : Option (Except Failure Word) :=
  if m.readable then some (m.getWord addr) else none

/-- The host reads the pc and the status record; `none` during a run (R136). -/
def hostReadStatus (m : State) : Option (Word × StatusRecord) :=
  if m.readable then some (m.pc, m.record) else none

/-! ### The operand-level drive (R136, last row) -/

/-- D0's `execute(descriptor, operandList, state)` (00_scope.md R8, IF-EXEC): the instruction's semantic
function, with no pc. -/
def perform (i : Instr) (m : State) : ExecutionOutcome :=
  match i with
  | .add d s t => semAdd d s t m
  | .sub d s t => semSub d s t m
  | .and d s t => semAnd d s t m
  | .or d s t => semOr d s t m
  | .xor d s t => semXor d s t m
  | .addi t s imm16 => semAddi t s imm16 m
  | .ld t base off16 => semLd t base off16 m
  | .st t base off16 => semSt t base off16 m
  | .beq s t target => semBeq s t target m
  | .grub t imm16 => semGrub t imm16 m
  | .tripled d s => semTripled d s m
  | .loaded t base off16 => semLoaded t base off16 m
  | .deep d s => semDeep d s m
  | .prim d s => semPrim d s m

/-- What the drive hands back: the state, the branch request reported to the host, and the failure if there
was one. -/
structure Driven where
  state : State
  request : Option Int
  failure : Option Failure
deriving DecidableEq, Repr

/-- One instruction driven by the host (R136): the rule runs, a branch request goes to the host, and the
engine's pc is not used. A failure is recorded by fault entry (60_exceptions.md R116, R119); no word is at
hand, so `BADINST` of an `AddressError` is a FREE VALUE (log 10), and `EPC` is the pc at the time (log 11). In HALTED
and FAULTED the engine answers nothing (60_exceptions.md R120; log 12). -/
def drive (i : Instr) (m : State) : Host.Outcome Driven Fault Refusal :=
  match m.stopped with
  | some f => .fault f
  | none =>
    match perform i m with
    | .completed m' request => .next ⟨m', request, none⟩
    | .failed f => .next ⟨m.enterFault f (Config.wordlessBadInst i), none, some f⟩

end Sys2Proof.Machine
end

