-- ==== Sys2Proof/Safety.lean ====
section
/-! DEFINITION. The terms claims are stated in: what an instruction leaves unchanged, what fault entry
leaves, the invariant of a run, and what counts as a safe run. -/

namespace Sys2Proof.Machine

/-- A run is safe as long as no failure is recorded: `FAULTED` is "never a final state of a successful run"
(60_exceptions.md R119). -/
def State.safe (m : State) : Prop := m.status ≠ .faulted

/-! ### Frames -/

/-- The status record is unchanged (10_state.md R19). -/
def SameRecord (m u : State) : Prop :=
  u.status = m.status ∧ u.cause = m.cause ∧ u.badAddr = m.badAddr ∧ u.badInst = m.badInst ∧ u.epc = m.epc

/-- Every register reads as before. -/
def SameRegisters (m u : State) : Prop := ∀ n : Int, u.getValue n = m.getValue n

/-- Every register but number `d` reads as before. -/
def SameRegistersBut (m u : State) (d : Int) : Prop := ∀ n : Int, n ≠ d → u.getValue n = m.getValue n

/-- Every byte of memory reads as before. -/
def SameMemory (m u : State) : Prop := ∀ a, u.mem.readByte a = m.mem.readByte a

/-- Every byte of memory outside the four at `a` reads as before. -/
def SameMemoryBut (m u : State) (a : Nat) : Prop :=
  ∀ b, b < a ∨ a + 4 ≤ b → u.mem.readByte b = m.mem.readByte b

/-- What register `d` holds after a write of `v`: a hardwired register 0 discards it (10_state.md R13). -/
def landed (m : State) (d : Int) (v : Word) : Word :=
  if m.cfg.r0Hardwired = true ∧ d = 0 then 0 else v

/-- `u` is `m` after an instruction that writes `v` to register `d`, requests no branch and does nothing
else. -/
def WritesRegister (m u : State) (d : Int) (v : Word) : Prop :=
  u.getValue d = .ok (landed m d v) ∧ SameRegistersBut m u d ∧ SameMemory m u ∧ SameRecord m u ∧
    u.cfg = m.cfg ∧ u.pc = m.pc + 4

/-- `u` is `m` after fault entry with this cause and record (60_exceptions.md R119): registers, memory and pc
are as before. -/
def FaultEntered (m u : State) (c : Cause) (badAddr badInst : Word) : Prop :=
  u.status = .faulted ∧ u.cause = c ∧ u.badAddr = badAddr ∧ u.badInst = badInst ∧ u.epc = m.pc ∧
    u.pc = m.pc ∧ SameRegisters m u ∧ SameMemory m u ∧ u.cfg = m.cfg

/-! ### Arithmetic in the integers -/

/-- The value of a 16-bit two's-complement operand, of a wider integer its low 16 bits
(30_encoding.md R58 a). -/
def signed16 (v : Int) : Int := Int.bmod v 65536

/-- `is_prime(n)` (00_scope.md R7). -/
def IsPrime (n : Int) : Prop := 2 ≤ n ∧ ∀ k : Int, 2 ≤ k → k < n → ¬ k ∣ n

/-! ### Which instructions touch memory -/

/-- The data register, base register and offset of LD, ST and LOADED (41_load_store.md R80 a). -/
def accessOf : Instr → Option (Int × Int × Int)
  | .ld t base off16 => some (t, base, off16)
  | .st t base off16 => some (t, base, off16)
  | .loaded t base off16 => some (t, base, off16)
  | .add .. => none
  | .sub .. => none
  | .and .. => none
  | .or .. => none
  | .xor .. => none
  | .addi .. => none
  | .beq .. => none
  | .grub .. => none
  | .tripled .. => none
  | .deep .. => none
  | .prim .. => none

/-- The register an instruction writes (10_state.md R15). -/
def destOf : Instr → Option Int
  | .add d .. => some d
  | .sub d .. => some d
  | .and d .. => some d
  | .or d .. => some d
  | .xor d .. => some d
  | .addi t .. => some t
  | .ld t .. => some t
  | .st .. => none
  | .beq .. => none
  | .grub t .. => some t
  | .tripled d .. => some d
  | .loaded t .. => some t
  | .deep d .. => some d
  | .prim d .. => some d

/-- The registers an instruction reads (10_state.md R15). -/
def sourcesOf : Instr → List Int
  | .add _ s t => [s, t]
  | .sub _ s t => [s, t]
  | .and _ s t => [s, t]
  | .or _ s t => [s, t]
  | .xor _ s t => [s, t]
  | .addi _ s _ => [s]
  | .ld _ base _ => [base]
  | .st t base _ => [base, t]
  | .beq s t _ => [s, t]
  | .grub _ _ => []
  | .tripled _ s => [s]
  | .loaded _ base _ => [base]
  | .deep _ s => [s]
  | .prim _ s => [s]

/-- With a register operand outside `[0, 32)` the instruction takes `InvalidRegisterError`, which records one
such operand (which of several, log 9) and writes nothing (60_exceptions.md R111, R116 row 1). -/
def RejectsBadRegisters (i : Instr) : Prop :=
  ∀ m : State, i.registers.all isRegIndex = false →
    ∃ n ∈ i.registers, isRegIndex n = false ∧
      ∃ u, exec i m = .next u ∧ FaultEntered m u .invalidRegister (BitVec.ofInt 32 n) 0

/-- Where the word at the effective address is misaligned or outside the extent, the instruction takes
`AddressError` with that address and the instruction's word (60_exceptions.md R112, R116 row 2); an instruction with an
ill-formed offset has no word (log 10). -/
def RejectsBadAddress (i : Instr) : Prop :=
  ∀ (m : State) (t base off : Int) (b : Word), accessOf i = some (t, base, off) → isRegIndex t = true →
    m.getValue base = .ok b → legalWord m.cfg (effectiveAddress b off).toNat = false →
    ∃ u w, exec i m = .next u ∧ FaultEntered m u .addressError (effectiveAddress b off) w ∧
      (i.wellFormed = true → w = encode i)

/-! ### The invariant of a run -/

/-- The listed bytes lie in the extent (20_memory.md R30). -/
def memInExtent (m : State) : Prop :=
  ∀ c ∈ m.mem, m.cfg.memBase ≤ c.1 ∧ c.1 < m.cfg.memBase + m.cfg.memSize

/-- No failure is recorded (60_exceptions.md R116, row 0). -/
def recordClear (m : State) : Prop :=
  m.cause = .noFailure ∧ m.badAddr = 0 ∧ m.badInst = 0 ∧ m.epc = 0

/-- The record of a failed access describes the instruction at the pc (60_exceptions.md R112, R116 row 2). -/
def recordsAccess (m : State) : Prop :=
  fetch m.cfg m.pc = .ok m.badInst ∧ ∃ i t base off b, decode m.badInst = some i ∧
    accessOf i = some (t, base, off) ∧ m.getValue base = .ok b ∧
    m.badAddr = effectiveAddress b off ∧ legalWord m.cfg m.badAddr.toNat = false

/-- `STATUS`, the record and the pc fit together (10_state.md R19, 42_branch_pc.md R96, 60_exceptions.md R116);
`InvalidRegisterError` never occurs in a run (R111). -/
def recordFits (m : State) : Prop :=
  match m.status with
  | .running => recordClear m
  | .halted => recordClear m ∧ m.pc.toNat = m.cfg.progEnd
  | .faulted =>
    m.epc = m.pc ∧
      match m.cause with
      | .noFailure => False
      | .invalidRegister => False
      | .addressError => recordsAccess m
      | .illegalInstruction => m.badAddr = 0 ∧ fetch m.cfg m.pc = .ok m.badInst ∧ decode m.badInst = none
      | .fetchError =>
        m.badAddr = m.pc ∧ m.badInst = 0 ∧ m.pc.toNat ≠ m.cfg.progEnd ∧
          fetch m.cfg m.pc = .error (.fetchError m.pc)

/-- The invariant every step keeps: the memory is canonical and inside the extent, the pc is aligned
(42_branch_pc.md R94 a), a hardwired register 0 holds zero, and the record fits. -/
def State.Inv (m : State) : Prop :=
  m.mem.wf = true ∧ memInExtent m ∧ m.pc.toNat % 4 = 0 ∧ (m.cfg.r0Hardwired = true → m.regs[0] = 0) ∧
    recordFits m

/-! ### Two states no program tells apart -/

/-- The two states differ only in the byte order and in the bytes that hold the same words
(20_memory.md R36). -/
def SameButByteOrder (m u : State) : Prop :=
  u.cfg = { m.cfg with byteOrder := u.cfg.byteOrder } ∧ u.regs = m.regs ∧ u.pc = m.pc ∧ SameRecord m u ∧
    ∀ addr : Word, u.getWord addr = m.getWord addr

end Sys2Proof.Machine
end

