-- ==== Sys2Proof/Certificates/Slice0/Obligations.lean ====
section
/-! DEFINITION. The statements for the provers: what the spec's numbered rules say the engine does. -/

open Sys2Proof Sys2Proof.Machine

/-! ## Encoding -/

/-- Words of 95_test_vectors.md 2.1 to 2.8, one per instruction and some illegal ones, decode as listed. -/
def Obligations.DecodesSpecWords : Prop :=
  decode 0x00221801 = some (.add 3 1 2) ∧ decode 0x00411802 = some (.sub 3 2 1) ∧
  decode 0x01093803 = some (.and 7 8 9) ∧ decode 0x01093804 = some (.or 7 8 9) ∧
  decode 0x03FFF805 = some (.xor 31 31 31) ∧ decode 0x0422FFFF = some (.addi 2 1 65535) ∧
  decode 0x08440008 = some (.ld 4 2 8) ∧ decode 0x0C1F7FFF = some (.st 31 0 32767) ∧
  decode 0x1022FFFD = some (.beq 1 2 65533) ∧ decode 0x402001FF = some (.grub 1 511) ∧
  decode 0x00602020 = some (.tripled 4 3) ∧ decode 0x47E08000 = some (.loaded 0 31 32768) ∧
  decode 0x00802821 = some (.deep 5 4) ∧ decode 0x00603022 = some (.prim 6 3) ∧
  decode 0x00000000 = none ∧ decode 0x00221841 = none ∧ decode 0x00612020 = none ∧
  decode 0x40210001 = none ∧ decode 0x14000000 = none ∧ decode 0xFFFFFFFF = none

/-- Decoding an encoded well-formed instruction gives it back. -/
def Obligations.DecodeOfEncode : Prop :=
  ∀ i : Instr, i.wellFormed = true → decode (encode i) = some i

/-- A word that decodes is the encoding of what it decodes to, and the instruction is well formed. -/
def Obligations.EncodeOfDecode : Prop :=
  ∀ (w : Word) (i : Instr), decode w = some i → i.wellFormed = true ∧ encode i = w

/-- The decoder agrees with the catalog on every word: the matching template names the instruction, and the
bits under its letters f, s, t are the first, second and third operand. -/
def Obligations.DecodeFollowsTemplates : Prop :=
  ∀ w : Word, (decode w).map (fun i => (i.mnemonic, i.operands)) = catalogDecode w

/-- No word matches two templates (30_encoding.md R59). -/
def Obligations.NoWordMatchesTwoTemplates : Prop :=
  ∀ (w : Word) (a b : Descriptor), a ∈ instructionSet → b ∈ instructionSet →
    a.matchesWord w = true → b.matchesWord w = true → a = b

/-- The illegal words are exactly R61's (a) to (e), and a step that fetches one is IllegalInstruction: the word
is recorded and no register, memory byte or pc changes (30_encoding.md R61, 60_exceptions.md R114; the spec's decision
D10, with D12 for the record). -/
def Obligations.IllegalWordsFault : Prop :=
  (∀ w : Word, decode w = none ↔
    (w.extractLsb' 26 6 ≠ 0 ∧ w.extractLsb' 26 6 ≠ 1 ∧ w.extractLsb' 26 6 ≠ 2 ∧ w.extractLsb' 26 6 ≠ 3 ∧
      w.extractLsb' 26 6 ≠ 4 ∧ w.extractLsb' 26 6 ≠ 16 ∧ w.extractLsb' 26 6 ≠ 17) ∨
    (w.extractLsb' 26 6 = 0 ∧ w.extractLsb' 6 5 ≠ 0) ∨
    (w.extractLsb' 26 6 = 0 ∧ (w.extractLsb' 0 6).toNat ∉ [1, 2, 3, 4, 5, 32, 33, 34]) ∨
    (w.extractLsb' 26 6 = 0 ∧ (w.extractLsb' 0 6).toNat ∈ [32, 33, 34] ∧ w.extractLsb' 16 5 ≠ 0) ∨
    (w.extractLsb' 26 6 = 16 ∧ w.extractLsb' 16 5 ≠ 0)) ∧
  ∀ (m : State) (w : Word), m.status = .running → m.pc.toNat ≠ m.cfg.progEnd → fetch m.cfg m.pc = .ok w →
    decode w = none → ∃ u, step m = .next u ∧ FaultEntered m u .illegalInstruction 0 w

/-- Two descriptors collide exactly when some word matches both; a registration fails exactly when the new
descriptor collides with one already there and appends it otherwise; populating an empty catalog registers the
fourteen descriptors, and populating it again fails (30_encoding.md R60). -/
def Obligations.CatalogRegistersDistinctTemplates : Prop :=
  (∀ a b : Descriptor, a.collides b = true ↔ ∃ w, a.matchesWord w = true ∧ b.matchesWord w = true) ∧
  (∀ (cat : List Descriptor) (d : Descriptor),
    ((∃ e ∈ cat, ∃ w, d.matchesWord w = true ∧ e.matchesWord w = true) →
      register cat d = .error .duplicateEncoding) ∧
    ((∀ e ∈ cat, ∀ w, d.matchesWord w = true → e.matchesWord w = false) →
      register cat d = .ok (cat ++ [d]))) ∧
  populate [] = .ok instructionSet ∧ instructionSet.length = 14 ∧
    populate instructionSet = .error .duplicateEncoding

/-! ## Registers and memory -/

/-- The register file: a read gives the register, 0 for a hardwired register 0; a write is read back by every
later read, changes no other register and nothing else, and is discarded by a hardwired register 0; an index
outside the file fails both (10_state.md R11, R12; the hardwired register 0 is R13, the spec's parameter D1). -/
def Obligations.RegisterFileReadsAndWrites : Prop :=
  (∀ (m : State) (r : Fin 32),
    m.getValue ((r : Nat) : Int) = .ok (if m.cfg.r0Hardwired = true ∧ r = 0 then 0 else m.regs[r])) ∧
  (∀ (m : State) (n : Int) (v : Word), isRegIndex n = true →
    ∃ u, m.updateRegister n v = .ok u ∧ u.getValue n = .ok (landed m n v) ∧ SameRegistersBut m u n ∧
      (m.cfg.r0Hardwired = true ∧ n = 0 → u = m) ∧
      u.cfg = m.cfg ∧ u.pc = m.pc ∧ u.mem = m.mem ∧ SameRecord m u) ∧
  ∀ (m : State) (n : Int) (v : Word), (n < 0 ∨ 32 ≤ n) →
    m.getValue n = .error (.invalidRegister n) ∧ m.updateRegister n v = .error (.invalidRegister n)

/-- The memory primitives: an access is legal exactly where it is aligned and the whole word lies in the
extent; a legal write is read back, changes no byte outside its word and nothing else of the state; any other
access fails with its address, whichever check it fails (20_memory.md R32, R33, R35; one failure kind for both causes is the spec's decision D27, R46). -/
def Obligations.WordAccessesCheckedAndStored : Prop :=
  ∀ (m : State) (addr v : Word),
    (addr.toNat % 4 = 0 ∧ m.cfg.memBase ≤ addr.toNat ∧ addr.toNat + 4 ≤ m.cfg.memBase + m.cfg.memSize →
      m.mem.wf = true →
      ∃ u, m.setWord addr v = .ok u ∧ u.getWord addr = .ok v ∧ SameMemoryBut m u addr.toNat ∧
        u.mem.wf = true ∧ u.cfg = m.cfg ∧ u.regs = m.regs ∧ u.pc = m.pc ∧ SameRecord m u) ∧
    (¬ (addr.toNat % 4 = 0 ∧ m.cfg.memBase ≤ addr.toNat ∧ addr.toNat + 4 ≤ m.cfg.memBase + m.cfg.memSize) →
      m.setWord addr v = .error (.addressError addr) ∧ m.getWord addr = .error (.addressError addr))

/-- After a word write the four bytes lie as the byte order says (20_memory.md R36). -/
def Obligations.StoredBytesFollowByteOrder : Prop :=
  ∀ (m u : State) (addr v : Word), m.mem.wf = true → m.setWord addr v = .ok u →
    (m.cfg.byteOrder = .little → ∀ k, k < 4 →
      u.mem.readByte (addr.toNat + k) = v.extractLsb' (8 * k) 8) ∧
    (m.cfg.byteOrder = .big → ∀ k, k < 4 →
      u.mem.readByte (addr.toNat + k) = v.extractLsb' (24 - 8 * k) 8)

/-- The effective address is the sum in the integers, reduced mod 2^32 (20_memory.md R37; the spec's decision D21). The
statement is for every integer offset: that one outside 0..65535 counts with its low 16 bits is the spec's decision D22
(30_encoding.md R58), and for a negative one the model's reading of it (log 19). -/
def Obligations.EffectiveAddressIsWrappedSum : Prop :=
  ∀ (b : Word) (off : Int),
    ((effectiveAddress b off).toNat : Int) = (b.toNat + signed16 off) % 2 ^ 32 ∧
      -32768 ≤ signed16 off ∧ signed16 off ≤ 32767 ∧
      (0 ≤ off → off < 32768 → signed16 off = off) ∧
      (32768 ≤ off → off < 65536 → signed16 off = off - 65536)

/-- The branch resolver in the integers: a signed count of instructions after the next one, mod 2^32; an aligned
pc stays aligned (42_branch_pc.md R93, R94 a). The formula is the spec's decided default of
BRANCH_RESOLVE (D7, log 8); that a target outside 0..65535 counts with its low 16 bits is the spec's decision D22
(30_encoding.md R58), and for a negative one the model's reading of it (log 19). -/
def Obligations.BranchTargetIsRelative : Prop :=
  ∀ (pc : Word) (v : Int),
    ((branchResolve pc v).toNat : Int) = (pc.toNat + 4 + 4 * signed16 v) % 2 ^ 32 ∧
      (pc.toNat % 4 = 0 → (branchResolve pc v).toNat % 4 = 0)

/-! ## The fourteen instructions: encoding, effect with its frame, rejected operands

Each effect clause holds for every state, running or not, and every register operand in range, source and
destination alike or not; `WritesRegister` says the register's new value, that a hardwired register 0 discards
it, that no other register, no byte of memory, nothing of the status record and nothing of the configuration
changes, and that the pc advances by 4. The pc's advance (42_branch_pc.md R92), the branch resolver (R93, log 8) and
the record of a failure (60_exceptions.md R116, R119) are decisions of the spec, D6, D7 and D12 to D14 of
92_eei_decisions.md. Immediate operands range over every integer: outside 0..65535 the low 16 bits count (GRUB's low 8),
which is the spec's decision D22 (30_encoding.md R58), for a negative operand the model's reading of it (log 19). -/

/-- ADD (40_integer_alu.md R71): the sum of the signed values, wrapped. -/
def Obligations.AddWritesWrappedSum : Prop :=
  (∀ s t d : BitVec 5, decode ((0 : BitVec 6) ++ s ++ t ++ d ++ (0 : BitVec 5) ++ (1 : BitVec 6)) =
    some (.add d.toNat s.toNat t.toNat)) ∧
  (∀ (d s t : Int) (a b : Word) (m : State), isRegIndex d = true → m.getValue s = .ok a →
    m.getValue t = .ok b →
    ∃ u, exec (.add d s t) m = .next u ∧ WritesRegister m u d (BitVec.ofInt 32 (a.toInt + b.toInt))) ∧
  ∀ d s t : Int, RejectsBadRegisters (.add d s t)

/-- SUB (R72): operand `s` minus operand `t`, wrapped. -/
def Obligations.SubWritesWrappedDifference : Prop :=
  (∀ s t d : BitVec 5, decode ((0 : BitVec 6) ++ s ++ t ++ d ++ (0 : BitVec 5) ++ (2 : BitVec 6)) =
    some (.sub d.toNat s.toNat t.toNat)) ∧
  (∀ (d s t : Int) (a b : Word) (m : State), isRegIndex d = true → m.getValue s = .ok a →
    m.getValue t = .ok b →
    ∃ u, exec (.sub d s t) m = .next u ∧ WritesRegister m u d (BitVec.ofInt 32 (a.toInt - b.toInt))) ∧
  ∀ d s t : Int, RejectsBadRegisters (.sub d s t)

/-- AND (R73), bit by bit. -/
def Obligations.AndWritesBitwiseAnd : Prop :=
  (∀ s t d : BitVec 5, decode ((0 : BitVec 6) ++ s ++ t ++ d ++ (0 : BitVec 5) ++ (3 : BitVec 6)) =
    some (.and d.toNat s.toNat t.toNat)) ∧
  (∀ (d s t : Int) (a b : Word) (m : State), isRegIndex d = true → m.getValue s = .ok a →
    m.getValue t = .ok b →
    ∃ u v, exec (.and d s t) m = .next u ∧ WritesRegister m u d v ∧
      ∀ k, k < 32 → v.getLsbD k = (a.getLsbD k && b.getLsbD k)) ∧
  ∀ d s t : Int, RejectsBadRegisters (.and d s t)

/-- OR (R74), bit by bit. -/
def Obligations.OrWritesBitwiseOr : Prop :=
  (∀ s t d : BitVec 5, decode ((0 : BitVec 6) ++ s ++ t ++ d ++ (0 : BitVec 5) ++ (4 : BitVec 6)) =
    some (.or d.toNat s.toNat t.toNat)) ∧
  (∀ (d s t : Int) (a b : Word) (m : State), isRegIndex d = true → m.getValue s = .ok a →
    m.getValue t = .ok b →
    ∃ u v, exec (.or d s t) m = .next u ∧ WritesRegister m u d v ∧
      ∀ k, k < 32 → v.getLsbD k = (a.getLsbD k || b.getLsbD k)) ∧
  ∀ d s t : Int, RejectsBadRegisters (.or d s t)

/-- XOR (R75), bit by bit. -/
def Obligations.XorWritesBitwiseXor : Prop :=
  (∀ s t d : BitVec 5, decode ((0 : BitVec 6) ++ s ++ t ++ d ++ (0 : BitVec 5) ++ (5 : BitVec 6)) =
    some (.xor d.toNat s.toNat t.toNat)) ∧
  (∀ (d s t : Int) (a b : Word) (m : State), isRegIndex d = true → m.getValue s = .ok a →
    m.getValue t = .ok b →
    ∃ u v, exec (.xor d s t) m = .next u ∧ WritesRegister m u d v ∧
      ∀ k, k < 32 → v.getLsbD k = (a.getLsbD k != b.getLsbD k)) ∧
  ∀ d s t : Int, RejectsBadRegisters (.xor d s t)

/-- ADDI (R76): the immediate is sign-extended. For every integer immediate: outside 0..65535 by the spec's decision D22
(30_encoding.md R58), negative by the model's reading of it (log 19). -/
def Obligations.AddiWritesSumWithSignedImmediate : Prop :=
  (∀ (s t : BitVec 5) (i : BitVec 16), decode ((1 : BitVec 6) ++ s ++ t ++ i) =
    some (.addi t.toNat s.toNat i.toNat)) ∧
  (∀ (t s imm16 : Int) (a : Word) (m : State), isRegIndex t = true → m.getValue s = .ok a →
    ∃ u, exec (.addi t s imm16) m = .next u ∧
      WritesRegister m u t (BitVec.ofInt 32 (a.toInt + signed16 imm16))) ∧
  ∀ t s imm16 : Int, RejectsBadRegisters (.addi t s imm16)

/-- LD (41_load_store.md R81): the word at the effective address; a bad address is AddressError. -/
def Obligations.LdWritesLoadedWord : Prop :=
  (∀ (s t : BitVec 5) (i : BitVec 16), decode ((2 : BitVec 6) ++ s ++ t ++ i) =
    some (.ld t.toNat s.toNat i.toNat)) ∧
  (∀ (t base off16 : Int) (b v : Word) (m : State), isRegIndex t = true → m.getValue base = .ok b →
    m.getWord (effectiveAddress b off16) = .ok v →
    ∃ u, exec (.ld t base off16) m = .next u ∧ WritesRegister m u t v) ∧
  (∀ t base off16 : Int, RejectsBadAddress (.ld t base off16)) ∧
  ∀ t base off16 : Int, RejectsBadRegisters (.ld t base off16)

/-- ST (R82): the register's word lands at the effective address and nothing else changes; a bad address is
AddressError. The memory is canonical (`StepKeepsInv` states that). -/
def Obligations.StStoresRegister : Prop :=
  (∀ (s t : BitVec 5) (i : BitVec 16), decode ((3 : BitVec 6) ++ s ++ t ++ i) =
    some (.st t.toNat s.toNat i.toNat)) ∧
  (∀ (t base off16 : Int) (b v : Word) (m : State), m.getValue t = .ok v → m.getValue base = .ok b →
    legalWord m.cfg (effectiveAddress b off16).toNat = true → m.mem.wf = true →
    ∃ u, exec (.st t base off16) m = .next u ∧ u.getWord (effectiveAddress b off16) = .ok v ∧
      SameMemoryBut m u (effectiveAddress b off16).toNat ∧ SameRegisters m u ∧ SameRecord m u ∧
      u.cfg = m.cfg ∧ u.pc = m.pc + 4) ∧
  (∀ t base off16 : Int, RejectsBadAddress (.st t base off16)) ∧
  ∀ t base off16 : Int, RejectsBadRegisters (.st t base off16)

/-- BEQ (42_branch_pc.md R90): equal registers redirect the pc through the branch resolver, unequal ones advance
it by 4; nothing else changes. -/
def Obligations.BeqRedirectsIffEqual : Prop :=
  (∀ (s t : BitVec 5) (i : BitVec 16), decode ((4 : BitVec 6) ++ s ++ t ++ i) =
    some (.beq s.toNat t.toNat i.toNat)) ∧
  (∀ (s t target : Int) (a b : Word) (m : State), m.getValue s = .ok a → m.getValue t = .ok b →
    ∃ u, exec (.beq s t target) m = .next u ∧
      u.pc = (if a = b then branchResolve m.pc target else m.pc + 4) ∧
      SameRegisters m u ∧ SameMemory m u ∧ SameRecord m u ∧ u.cfg = m.cfg) ∧
  ∀ s t target : Int, RejectsBadRegisters (.beq s t target)

/-- GRUB (43_custom_ops.md R101): the low 8 bits, whatever the immediate: outside 0..65535 by the spec's decision D22
(30_encoding.md R58), negative by the model's reading of it (log 19). -/
def Obligations.GrubWritesLowByte : Prop :=
  (∀ (s : BitVec 5) (i : BitVec 16), decode ((16 : BitVec 6) ++ s ++ (0 : BitVec 5) ++ i) =
    some (.grub s.toNat i.toNat)) ∧
  (∀ (s t : BitVec 5) (i : BitVec 16), t ≠ 0 → decode ((16 : BitVec 6) ++ s ++ t ++ i) = none) ∧
  (∀ (t imm16 : Int) (m : State), isRegIndex t = true →
    ∃ u, exec (.grub t imm16) m = .next u ∧ WritesRegister m u t (BitVec.ofInt 32 (imm16 % 256))) ∧
  ∀ t imm16 : Int, RejectsBadRegisters (.grub t imm16)

/-- TRIPLED (R102): three times the value, wrapped. -/
def Obligations.TripledWritesWrappedTriple : Prop :=
  (∀ s d : BitVec 5,
    decode ((0 : BitVec 6) ++ s ++ (0 : BitVec 5) ++ d ++ (0 : BitVec 5) ++ (32 : BitVec 6)) =
      some (.tripled d.toNat s.toNat)) ∧
  (∀ (d s : Int) (a : Word) (m : State), isRegIndex d = true → m.getValue s = .ok a →
    ∃ u, exec (.tripled d s) m = .next u ∧ WritesRegister m u d (BitVec.ofInt 32 (a.toInt * 3))) ∧
  ∀ d s : Int, RejectsBadRegisters (.tripled d s)

/-- LOADED (41_load_store.md R83): as LD with bit 31 set; bits 30:0 are the loaded word's. -/
def Obligations.LoadedWritesWordWithBit31 : Prop :=
  (∀ (s t : BitVec 5) (i : BitVec 16), decode ((17 : BitVec 6) ++ s ++ t ++ i) =
    some (.loaded t.toNat s.toNat i.toNat)) ∧
  (∀ (t base off16 : Int) (b w : Word) (m : State), isRegIndex t = true → m.getValue base = .ok b →
    m.getWord (effectiveAddress b off16) = .ok w →
    ∃ u v, exec (.loaded t base off16) m = .next u ∧ WritesRegister m u t v ∧ v.getLsbD 31 = true ∧
      ∀ k, k < 31 → v.getLsbD k = w.getLsbD k) ∧
  (∀ t base off16 : Int, RejectsBadAddress (.loaded t base off16)) ∧
  ∀ t base off16 : Int, RejectsBadRegisters (.loaded t base off16)

/-- DEEP (43_custom_ops.md R103): result bit `k` is source bit `31 - k`. -/
def Obligations.DeepWritesReversedBits : Prop :=
  (∀ s d : BitVec 5,
    decode ((0 : BitVec 6) ++ s ++ (0 : BitVec 5) ++ d ++ (0 : BitVec 5) ++ (33 : BitVec 6)) =
      some (.deep d.toNat s.toNat)) ∧
  (∀ (d s : Int) (a : Word) (m : State), isRegIndex d = true → m.getValue s = .ok a →
    ∃ u v, exec (.deep d s) m = .next u ∧ WritesRegister m u d v ∧
      ∀ k, k < 32 → v.getLsbD k = a.getLsbD (31 - k)) ∧
  ∀ d s : Int, RejectsBadRegisters (.deep d s)

/-- PRIM (43_custom_ops.md R104): 1 if the signed value is prime in the sense of 00_scope.md R7, else 0. -/
def Obligations.PrimWritesPrimality : Prop :=
  (∀ s d : BitVec 5,
    decode ((0 : BitVec 6) ++ s ++ (0 : BitVec 5) ++ d ++ (0 : BitVec 5) ++ (34 : BitVec 6)) =
      some (.prim d.toNat s.toNat)) ∧
  (∀ (d s : Int) (a : Word) (m : State), isRegIndex d = true → m.getValue s = .ok a →
    ∃ u v, exec (.prim d s) m = .next u ∧ WritesRegister m u d v ∧
      (IsPrime a.toInt → v = 1) ∧ (¬ IsPrime a.toInt → v = 0)) ∧
  ∀ d s : Int, RejectsBadRegisters (.prim d s)

/-! ## Rules about all instructions -/

/-- DEEP is an involution (43_custom_ops.md R103): two DEEPs in a row give the source back. -/
def Obligations.DeepTwiceRestores : Prop :=
  ∀ (d e s : Int) (a : Word) (m : State), isRegIndex d = true → isRegIndex e = true →
    m.getValue s = .ok a → (m.cfg.r0Hardwired = true → d ≠ 0 ∧ e ≠ 0) →
    ∃ u v, exec (.deep d s) m = .next u ∧ exec (.deep e d) u = .next v ∧ v.getValue e = .ok a

/-- A load right after a store to the same address gives the stored word, LOADED with bit 31 set
(20_memory.md R41, 70_reset_and_hazards.md R133). -/
def Obligations.LoadAfterStoreGivesStoredWord : Prop :=
  ∀ (t base off16 d : Int) (b v : Word) (m : State), m.getValue t = .ok v → m.getValue base = .ok b →
    legalWord m.cfg (effectiveAddress b off16).toNat = true → m.mem.wf = true → isRegIndex d = true →
    ∃ u, exec (.st t base off16) m = .next u ∧
      (∃ p, exec (.ld d base off16) u = .next p ∧ p.getValue d = .ok (landed m d v)) ∧
      ∃ p, exec (.loaded d base off16) u = .next p ∧ p.getValue d = .ok (landed m d (v ||| 0x80000000))

/-- Every instruction with a register operand out of range is InvalidRegisterError, checked before any register
or memory access: nothing is written (60_exceptions.md R111; the order is the spec's decision D14, the record D12; which of
several offending indices is recorded is a free value, log 9). -/
def Obligations.BadRegistersAlwaysRejected : Prop :=
  ∀ i : Instr, RejectsBadRegisters i

/-- No decoded word has a register operand out of range, so InvalidRegisterError does not arise from one
(30_encoding.md R64). -/
def Obligations.DecodedRegistersInRange : Prop :=
  ∀ (w : Word) (i : Instr), decode w = some i →
    (∀ n ∈ i.registers, isRegIndex n = true) ∧
    ∀ m u : State, exec i m = .next u → m.cause ≠ .invalidRegister → u.cause ≠ .invalidRegister

/-- Only LD, ST and LOADED can fail: every other well-formed instruction completes in every state, with the
status record as it was (40_integer_alu.md R70 e, 43_custom_ops.md R100). -/
def Obligations.OtherInstructionsNeverFail : Prop :=
  ∀ (i : Instr) (m : State), i.wellFormed = true → accessOf i = none →
    ∃ u, exec i m = .next u ∧ SameRecord m u ∧ SameMemory m u ∧ u.cfg = m.cfg

/-- AddressError is raised only by LD, ST and LOADED, exactly where the effective address is misaligned or the
word is not inside the extent, and records that address, the fetched word and its pc
(60_exceptions.md R112; the form of the record is the spec's decision D12). -/
def Obligations.AddressErrorIffBadAccess : Prop :=
  (∀ m u : State, m.cause = .noFailure → step m = .next u → u.cause = .addressError →
    ∃ w i t base off b, fetch m.cfg m.pc = .ok w ∧ decode w = some i ∧ accessOf i = some (t, base, off) ∧
      m.getValue base = .ok b ∧ legalWord m.cfg (effectiveAddress b off).toNat = false ∧
      FaultEntered m u .addressError (effectiveAddress b off) w) ∧
  (∀ (m : State) (w : Word) (i : Instr) (t base off : Int) (b : Word), m.status = .running →
    m.pc.toNat ≠ m.cfg.progEnd → fetch m.cfg m.pc = .ok w → decode w = some i →
    accessOf i = some (t, base, off) → m.getValue base = .ok b →
    legalWord m.cfg (effectiveAddress b off).toNat = false →
    ∃ u, step m = .next u ∧ FaultEntered m u .addressError (effectiveAddress b off) w) ∧
  ∀ (c : RunConfig) (a : Nat), legalWord c a = false ↔
    a % 4 ≠ 0 ∨ a < c.memBase ∨ c.memBase + c.memSize < a + 4

/-- Where a step records a failure, registers, memory and pc are as before it, EPC is its pc, and no later step
exists (60_exceptions.md R117; the record, the pc and the stop are the spec's decisions D12 and D15, 42_branch_pc.md R98,
60_exceptions.md R120). -/
def Obligations.FailuresArePrecise : Prop :=
  ∀ m u : State, step m = .next u → u.status = .faulted →
    SameRegisters m u ∧ SameMemory m u ∧ u.cfg = m.cfg ∧ u.pc = m.pc ∧ u.epc = m.pc ∧
      u.cause ≠ .noFailure ∧ step u = .fault .engineFaulted

/-- What any instruction changes: nothing but its destination register, the word ST stores, the pc and, by
fault entry, the record; a completed one leaves the record alone (10_state.md R15). -/
def Obligations.EveryInstructionKeepsItsFrame : Prop :=
  ∀ (i : Instr) (m u : State), m.mem.wf = true → exec i m = .next u →
    u.cfg = m.cfg ∧ (∀ n : Int, destOf i ≠ some n → u.getValue n = m.getValue n) ∧
      ((∀ t base off, i ≠ .st t base off) → SameMemory m u) ∧
      (∀ t base off b, i = .st t base off → m.getValue base = .ok b →
        SameMemoryBut m u (effectiveAddress b off).toNat) ∧
      (SameRecord m u ∨ ∃ c a w, FaultEntered m u c a w)

/-- The result depends only on the registers R15 lists as read, the memory and the configuration: two states
that agree on them end with the same memory and, in the destination, the same value. -/
def Obligations.ResultUsesOnlySources : Prop :=
  ∀ (i : Instr) (m m' u u' : State), i.wellFormed = true → m'.cfg = m.cfg → m'.mem = m.mem →
    (∀ n ∈ sourcesOf i, m'.getValue n = m.getValue n) →
    exec i m = .next u → exec i m' = .next u' → u.status = .running → u'.status = .running →
    u'.mem = u.mem ∧ ∀ d, destOf i = some d → u'.getValue d = u.getValue d

/-- The pc after an instruction (42_branch_pc.md R92): a completed BEQ with equal registers goes to the resolved
target, everything else that completes goes to pc + 4, and what fails stays (the spec's decisions D6, D7 and D12; the
resolver is log 8). -/
def Obligations.PcAfterEveryInstruction : Prop :=
  ∀ (i : Instr) (m u : State), m.status = .running → exec i m = .next u →
    (u.status = .faulted → u.pc = m.pc) ∧
    (u.status = .running →
      (∀ s t target, i = .beq s t target → m.getValue s = m.getValue t → u.pc = branchResolve m.pc target) ∧
      ((∀ s t target, i = .beq s t target → m.getValue s ≠ m.getValue t) → u.pc = m.pc + 4))

/-! ## The instruction cycle -/

/-- A step runs the decoded instruction and adds nothing around it: the pc's advance is part of `exec`
(42_branch_pc.md R95; the spec's decisions D5 and D8). -/
def Obligations.StepRunsDecodedInstruction : Prop :=
  ∀ (m : State) (w : Word) (i : Instr), m.status = .running → m.pc.toNat ≠ m.cfg.progEnd →
    fetch m.cfg m.pc = .ok w → decode w = some i → step m = exec i m

/-- In HALTED and in FAULTED no step exists (42_branch_pc.md R95, 60_exceptions.md R120; the spec's decisions D8, D15;
the outcome that says so is a Fault, log 14). -/
def Obligations.StoppedEngineHasNoStep : Prop :=
  ∀ m : State, (m.status = .halted → step m = .fault .engineHalted) ∧
    (m.status = .faulted → step m = .fault .engineFaulted)

/-- A run ends in exactly one of two ways: HALTED because the pc is PROG_END, with registers, memory, pc and
record as they were, or FAULTED (42_branch_pc.md R96; the spec's decision D8). -/
def Obligations.RunEndsHaltedOrFaulted : Prop :=
  ∀ m : State, m.status = .running →
    (m.pc.toNat = m.cfg.progEnd →
      ∃ u, step m = .next u ∧ u.status = .halted ∧ SameRegisters m u ∧ SameMemory m u ∧ u.pc = m.pc ∧
        u.cfg = m.cfg ∧ u.cause = m.cause ∧ u.badAddr = m.badAddr ∧ u.badInst = m.badInst ∧ u.epc = m.epc ∧
        step u = .fault .engineHalted) ∧
    (m.pc.toNat ≠ m.cfg.progEnd → ∃ u, step m = .next u ∧ (u.status = .running ∨ u.status = .faulted))

/-- Fetch (42_branch_pc.md R97, 60_exceptions.md R115): inside the store and aligned it gives the word the pc
names, from the configuration alone, so no data memory is read; elsewhere, PROG_END apart, the step is
FetchError (the spec's decisions D8 and D9). -/
def Obligations.FetchReadsStoreOrFails : Prop :=
  (∀ (c : RunConfig) (pc : Word), pc.toNat % 4 = 0 → c.progBase.toNat ≤ pc.toNat →
    pc.toNat < c.progBase.toNat + 4 * c.prog.length →
    ∃ w, c.prog[(pc.toNat - c.progBase.toNat) / 4]? = some w ∧ fetch c pc = .ok w) ∧
  ∀ m : State, m.status = .running → m.pc.toNat ≠ m.cfg.progEnd →
    (m.pc.toNat % 4 ≠ 0 ∨ m.pc.toNat < m.cfg.progBase.toNat ∨ m.cfg.progEnd ≤ m.pc.toNat) →
    ∃ u, step m = .next u ∧ FaultEntered m u .fetchError m.pc 0

/-- Nothing a step does reaches the program store or the rest of the configuration, so a store never changes
what a later fetch sees (10_state.md R23, 20_memory.md R43; the spec's decision D9). -/
def Obligations.StepsKeepProgramStore : Prop :=
  ∀ m u : State, step m = .next u → u.cfg = m.cfg ∧ ∀ pc : Word, fetch u.cfg pc = fetch m.cfg pc

/-- A placed word is the next instruction to run, in whatever state: the model's stand-in for the host's program load
(log 5). -/
def Obligations.PlacedWordRunsNext : Prop :=
  ∀ (m : State) (w : Word) (i : Instr), decode w = some i →
    step (m.withFetchWord 32 w.toNat) = exec i (m.withFetchWord 32 w.toNat) ∧
      (m.withFetchWord 32 w.toNat).regs = m.regs ∧ (m.withFetchWord 32 w.toNat).mem = m.mem ∧
      decodeTableWord 32 w.toNat = some i

/-! ## Invariant, reset, host -/

/-- Every step keeps the invariant of `State.Inv`. -/
def Obligations.StepKeepsInv : Prop :=
  ∀ m u : State, m.Inv → step m = .next u → u.Inv

/-- The state after reset meets the invariant. -/
def Obligations.ResetMeetsInv : Prop := State.reset.Inv

/-- Reset with any well-formed configuration meets the invariant. -/
def Obligations.HostResetMeetsInv : Prop :=
  ∀ c : RunConfig, c.wf = true → (hostReset c).Inv

/-- The reset values (10_state.md R26) for every configuration, and the first instruction is the first word of
the program store (70_reset_and_hazards.md R131; the spec's decisions D17 to D19; MEM_INIT's form is log 17; that a configuration outside
`RunConfig.wf` is installed all the same is log 18, and the value clauses hold of those too). -/
def Obligations.HostResetInstallsValues : Prop :=
  ∀ c : RunConfig,
    (∀ r : Fin 32, (hostReset c).getValue ((r : Nat) : Int) =
      .ok (if c.r0Hardwired = true ∧ r = 0 then 0 else c.regReset[r])) ∧
    (hostReset c).pc = c.progBase ∧
    (∀ a : Word, legalWord c a.toNat = true → (hostReset c).getWord a = .ok (memInitWord c a.toNat)) ∧
    (hostReset c).status = .running ∧ recordClear (hostReset c) ∧ (hostReset c).cfg = c ∧
    (∀ (w : Word) (rest : List Word) (i : Instr), c.wf = true → c.prog = w :: rest → decode w = some i →
      step (hostReset c) = exec i (hostReset c))

/-- The byte order of memory is invisible: two states with the same words step alike, whatever order their
bytes lie in (20_memory.md R36). -/
def Obligations.ByteOrderIsInvisible : Prop :=
  ∀ m m' : State, m.mem.wf = true → m'.mem.wf = true → SameButByteOrder m m' →
    (∀ f, step m = .fault f ↔ step m' = .fault f) ∧
    (∀ u, step m = .next u → ∃ u', step m' = .next u' ∧ SameButByteOrder u u')

/-- The operand-level drive runs the same rule without the engine's pc: on completion the instruction cycle
would give the driven state with R92 applied; on failure both record the same cause and address, and the driven record's
BADINST is 0 for InvalidRegisterError and the free value for AddressError; BEQ's request reaches the host as its 16-bit
operand, a decoded one unchanged (70_reset_and_hazards.md R136, 42_branch_pc.md R91; EPC at the drive is the model's, log 11,
and BADINST of an AddressError there a free value, log 10; a target outside 0..65535 is narrowed by 30_encoding.md R58,
the spec's D22, a negative one by log 19). -/
def Obligations.DriveRunsRuleWithoutPc : Prop :=
  (∀ (i : Instr) (m : State), m.status = .running →
    ∃ r, drive i m = .next r ∧ r.state.pc = m.pc ∧
      (r.failure = none → exec i m = .next (r.state.sequence r.request)) ∧
      (∀ f, r.failure = some f → r.request = none ∧ ∃ u, exec i m = .next u ∧
        FaultEntered m u f.cause f.badAddr (f.badInst (instructionWord i)) ∧
        FaultEntered m r.state f.cause f.badAddr (f.badInst (Config.wordlessBadInst i)))) ∧
  ∀ (s t target : Int) (a b : Word) (m : State), m.status = .running → m.getValue s = .ok a →
    m.getValue t = .ok b →
    drive (.beq s t target) m = .next ⟨m, if a = b then some (target % 65536) else none, none⟩
end

