-- ==== Sys2Proof/Laws/Encode.lean ====
section
/-! SUPPORT. The fields of an encoded word, and a word from its fields (30_encoding.md R51 to R53). -/

namespace Sys2Proof

/-! ### Operand fields -/

theorem operandOf_field5 {n : Int} (h : isRegIndex n = true) : operandOf (field5 n) = n := by
  simp only [isRegIndex, Bool.and_eq_true, decide_eq_true_eq] at h
  unfold operandOf field5
  rw [BitVec.toNat_ofInt]
  omega

theorem operandOf_field16 {n : Int} (h : isField16 n = true) : operandOf (field16 n) = n := by
  simp only [isField16, Bool.and_eq_true, decide_eq_true_eq] at h
  unfold operandOf field16
  rw [BitVec.toNat_ofInt]
  omega

@[simp] theorem field5_operandOf (b : BitVec 5) : field5 (operandOf b) = b := by
  simp [field5, operandOf]

@[simp] theorem field16_operandOf (b : BitVec 16) : field16 (operandOf b) = b := by
  simp [field16, operandOf]

@[simp] theorem isRegIndex_operandOf (b : BitVec 5) : isRegIndex (operandOf b) = true := by
  have := b.isLt
  simp [isRegIndex, operandOf]
  omega

@[simp] theorem isField16_operandOf (b : BitVec 16) : isField16 (operandOf b) = true := by
  have := b.isLt
  simp [isField16, operandOf]
  omega

/-! ### Fields of an R-format word -/

@[simp] theorem opcodeOf_encodeR (s t d : BitVec 5) (f : BitVec 6) : opcodeOf (encodeR s t d f) = 0 := by
  apply BitVec.eq_of_getLsbD_eq
  intro i hi
  simp only [opcodeOf, encodeR, BitVec.getLsbD_append, BitVec.getLsbD_extractLsb']
  interval_cases i <;> rfl

@[simp] theorem s5Of_encodeR (s t d : BitVec 5) (f : BitVec 6) : s5Of (encodeR s t d f) = s := by
  apply BitVec.eq_of_getLsbD_eq
  intro i hi
  simp only [s5Of, encodeR, BitVec.getLsbD_append, BitVec.getLsbD_extractLsb']
  interval_cases i <;> rfl

@[simp] theorem t5Of_encodeR (s t d : BitVec 5) (f : BitVec 6) : t5Of (encodeR s t d f) = t := by
  apply BitVec.eq_of_getLsbD_eq
  intro i hi
  simp only [t5Of, encodeR, BitVec.getLsbD_append, BitVec.getLsbD_extractLsb']
  interval_cases i <;> rfl

@[simp] theorem d5Of_encodeR (s t d : BitVec 5) (f : BitVec 6) : d5Of (encodeR s t d f) = d := by
  apply BitVec.eq_of_getLsbD_eq
  intro i hi
  simp only [d5Of, encodeR, BitVec.getLsbD_append, BitVec.getLsbD_extractLsb']
  interval_cases i <;> rfl

@[simp] theorem unusedOf_encodeR (s t d : BitVec 5) (f : BitVec 6) : unusedOf (encodeR s t d f) = 0 := by
  apply BitVec.eq_of_getLsbD_eq
  intro i hi
  simp only [unusedOf, encodeR, BitVec.getLsbD_append, BitVec.getLsbD_extractLsb']
  interval_cases i <;> rfl

@[simp] theorem functOf_encodeR (s t d : BitVec 5) (f : BitVec 6) : functOf (encodeR s t d f) = f := by
  apply BitVec.eq_of_getLsbD_eq
  intro i hi
  simp only [functOf, encodeR, BitVec.getLsbD_append, BitVec.getLsbD_extractLsb']
  interval_cases i <;> rfl

/-! ### Fields of an I-format word -/

@[simp] theorem opcodeOf_encodeI (o : BitVec 6) (s t : BitVec 5) (i : BitVec 16) :
    opcodeOf (encodeI o s t i) = o := by
  apply BitVec.eq_of_getLsbD_eq
  intro i hi
  simp only [opcodeOf, encodeI, BitVec.getLsbD_append, BitVec.getLsbD_extractLsb']
  interval_cases i <;> rfl

@[simp] theorem s5Of_encodeI (o : BitVec 6) (s t : BitVec 5) (i : BitVec 16) :
    s5Of (encodeI o s t i) = s := by
  apply BitVec.eq_of_getLsbD_eq
  intro i hi
  simp only [s5Of, encodeI, BitVec.getLsbD_append, BitVec.getLsbD_extractLsb']
  interval_cases i <;> rfl

@[simp] theorem t5Of_encodeI (o : BitVec 6) (s t : BitVec 5) (i : BitVec 16) :
    t5Of (encodeI o s t i) = t := by
  apply BitVec.eq_of_getLsbD_eq
  intro i hi
  simp only [t5Of, encodeI, BitVec.getLsbD_append, BitVec.getLsbD_extractLsb']
  interval_cases i <;> rfl

@[simp] theorem i16Of_encodeI (o : BitVec 6) (s t : BitVec 5) (i : BitVec 16) :
    i16Of (encodeI o s t i) = i := by
  apply BitVec.eq_of_getLsbD_eq
  intro i hi
  simp only [i16Of, encodeI, BitVec.getLsbD_append, BitVec.getLsbD_extractLsb']
  interval_cases i <;> rfl

/-! ### A word from its fields -/

theorem word_of_fieldsR (w : Word) :
    opcodeOf w ++ s5Of w ++ t5Of w ++ d5Of w ++ unusedOf w ++ functOf w = w := by
  apply BitVec.eq_of_getLsbD_eq
  intro i hi
  simp only [opcodeOf, s5Of, t5Of, d5Of, unusedOf, functOf, BitVec.getLsbD_append,
    BitVec.getLsbD_extractLsb']
  interval_cases i <;> rfl

theorem word_of_fieldsI (w : Word) : encodeI (opcodeOf w) (s5Of w) (t5Of w) (i16Of w) = w := by
  apply BitVec.eq_of_getLsbD_eq
  intro i hi
  simp only [encodeI, opcodeOf, s5Of, t5Of, i16Of, BitVec.getLsbD_append, BitVec.getLsbD_extractLsb']
  interval_cases i <;> rfl

end Sys2Proof
end

