-- ==== Sys2Proof/Laws/State.lean ====
section
/-! SUPPORT. The state's updates, field by field: one lemma per field per update. -/

namespace Sys2Proof.Machine

/-! ### A new data memory -/

@[simp] theorem State.withMem_cfg (m : State) (mem : Memory) :
    (m.withMem mem).cfg = m.cfg := rfl

@[simp] theorem State.withMem_regs (m : State) (mem : Memory) :
    (m.withMem mem).regs = m.regs := rfl

@[simp] theorem State.withMem_pc (m : State) (mem : Memory) :
    (m.withMem mem).pc = m.pc := rfl

@[simp] theorem State.withMem_mem (m : State) (mem : Memory) :
    (m.withMem mem).mem = mem := rfl

@[simp] theorem State.withMem_status (m : State) (mem : Memory) :
    (m.withMem mem).status = m.status := rfl

@[simp] theorem State.withMem_cause (m : State) (mem : Memory) :
    (m.withMem mem).cause = m.cause := rfl

@[simp] theorem State.withMem_badAddr (m : State) (mem : Memory) :
    (m.withMem mem).badAddr = m.badAddr := rfl

@[simp] theorem State.withMem_badInst (m : State) (mem : Memory) :
    (m.withMem mem).badInst = m.badInst := rfl

@[simp] theorem State.withMem_epc (m : State) (mem : Memory) :
    (m.withMem mem).epc = m.epc := rfl

/-! ### The pc after a completed instruction -/

@[simp] theorem State.sequence_cfg (m : State) (request : Option Int) :
    (m.sequence request).cfg = m.cfg := rfl

@[simp] theorem State.sequence_regs (m : State) (request : Option Int) :
    (m.sequence request).regs = m.regs := rfl

@[simp] theorem State.sequence_pc (m : State) (request : Option Int) :
    (m.sequence request).pc = nextPc m.pc request := rfl

@[simp] theorem State.sequence_mem (m : State) (request : Option Int) :
    (m.sequence request).mem = m.mem := rfl

@[simp] theorem State.sequence_status (m : State) (request : Option Int) :
    (m.sequence request).status = m.status := rfl

@[simp] theorem State.sequence_cause (m : State) (request : Option Int) :
    (m.sequence request).cause = m.cause := rfl

@[simp] theorem State.sequence_badAddr (m : State) (request : Option Int) :
    (m.sequence request).badAddr = m.badAddr := rfl

@[simp] theorem State.sequence_badInst (m : State) (request : Option Int) :
    (m.sequence request).badInst = m.badInst := rfl

@[simp] theorem State.sequence_epc (m : State) (request : Option Int) :
    (m.sequence request).epc = m.epc := rfl

/-! ### The end of a run -/

@[simp] theorem State.halt_cfg (m : State) :
    (m.halt).cfg = m.cfg := rfl

@[simp] theorem State.halt_regs (m : State) :
    (m.halt).regs = m.regs := rfl

@[simp] theorem State.halt_pc (m : State) :
    (m.halt).pc = m.pc := rfl

@[simp] theorem State.halt_mem (m : State) :
    (m.halt).mem = m.mem := rfl

@[simp] theorem State.halt_status (m : State) :
    (m.halt).status = .halted := rfl

@[simp] theorem State.halt_cause (m : State) :
    (m.halt).cause = m.cause := rfl

@[simp] theorem State.halt_badAddr (m : State) :
    (m.halt).badAddr = m.badAddr := rfl

@[simp] theorem State.halt_badInst (m : State) :
    (m.halt).badInst = m.badInst := rfl

@[simp] theorem State.halt_epc (m : State) :
    (m.halt).epc = m.epc := rfl

/-! ### Fault entry -/

@[simp] theorem State.enterFault_cfg (m : State) (f : Failure) (word : Word) :
    (m.enterFault f word).cfg = m.cfg := rfl

@[simp] theorem State.enterFault_regs (m : State) (f : Failure) (word : Word) :
    (m.enterFault f word).regs = m.regs := rfl

@[simp] theorem State.enterFault_pc (m : State) (f : Failure) (word : Word) :
    (m.enterFault f word).pc = m.pc := rfl

@[simp] theorem State.enterFault_mem (m : State) (f : Failure) (word : Word) :
    (m.enterFault f word).mem = m.mem := rfl

@[simp] theorem State.enterFault_status (m : State) (f : Failure) (word : Word) :
    (m.enterFault f word).status = .faulted := rfl

@[simp] theorem State.enterFault_cause (m : State) (f : Failure) (word : Word) :
    (m.enterFault f word).cause = f.cause := rfl

@[simp] theorem State.enterFault_badAddr (m : State) (f : Failure) (word : Word) :
    (m.enterFault f word).badAddr = f.badAddr := rfl

@[simp] theorem State.enterFault_badInst (m : State) (f : Failure) (word : Word) :
    (m.enterFault f word).badInst = f.badInst word := rfl

@[simp] theorem State.enterFault_epc (m : State) (f : Failure) (word : Word) :
    (m.enterFault f word).epc = m.pc := rfl

/-! ### A register write -/

@[simp] theorem State.writeReg_cfg (m : State) (r : RegIdx) (v : Word) :
    (m.writeReg r v).cfg = m.cfg := by
  unfold State.writeReg; split <;> rfl

@[simp] theorem State.writeReg_pc (m : State) (r : RegIdx) (v : Word) :
    (m.writeReg r v).pc = m.pc := by
  unfold State.writeReg; split <;> rfl

@[simp] theorem State.writeReg_mem (m : State) (r : RegIdx) (v : Word) :
    (m.writeReg r v).mem = m.mem := by
  unfold State.writeReg; split <;> rfl

@[simp] theorem State.writeReg_status (m : State) (r : RegIdx) (v : Word) :
    (m.writeReg r v).status = m.status := by
  unfold State.writeReg; split <;> rfl

@[simp] theorem State.writeReg_cause (m : State) (r : RegIdx) (v : Word) :
    (m.writeReg r v).cause = m.cause := by
  unfold State.writeReg; split <;> rfl

@[simp] theorem State.writeReg_badAddr (m : State) (r : RegIdx) (v : Word) :
    (m.writeReg r v).badAddr = m.badAddr := by
  unfold State.writeReg; split <;> rfl

@[simp] theorem State.writeReg_badInst (m : State) (r : RegIdx) (v : Word) :
    (m.writeReg r v).badInst = m.badInst := by
  unfold State.writeReg; split <;> rfl

@[simp] theorem State.writeReg_epc (m : State) (r : RegIdx) (v : Word) :
    (m.writeReg r v).epc = m.epc := by
  unfold State.writeReg; split <;> rfl

end Sys2Proof.Machine
end

