-- ==== Sys2Proof/Laws/Memory.lean ====
section
/-! SUPPORT. The data memory: every operation keeps the canonical form, a read after a write gives the value
written, and a write leaves every other place alone (20_memory.md R34 to R36). -/

namespace Sys2Proof.Machine

/-! ### The canonical form -/

@[simp] theorem Memory.wf_nil : Memory.wf [] = true := rfl

theorem Memory.wf_cons (a : Nat) (v : Byte) (rest : Memory) :
    Memory.wf ((a, v) :: rest) = true ↔ v ≠ 0 ∧ (∀ c ∈ rest, a < c.1) ∧ Memory.wf rest = true := by
  simp [Memory.wf, and_assoc]

/-- An address below every listed one reads as 0. -/
theorem Memory.readByte_below (mem : Memory) (a : Nat) (h : ∀ c ∈ mem, a < c.1) :
    Memory.readByte mem a = 0 := by
  cases mem with
  | nil => rfl
  | cons c rest =>
    have := h c (by simp)
    simp [Memory.readByte, this]

/-- A write adds no address but its own. -/
theorem Memory.mem_writeByte (mem : Memory) (a : Nat) (x : Byte) (c : Host.Cell)
    (h : c ∈ Memory.writeByte mem a x) : c ∈ mem ∨ c.1 = a := by
  induction mem with
  | nil =>
    simp only [Memory.writeByte] at h
    split at h <;> simp_all
  | cons d rest ih =>
    obtain ⟨b, v⟩ := d
    simp only [Memory.writeByte] at h
    split at h
    · split at h
      · exact .inl h
      · rcases List.mem_cons.1 h with rfl | h
        · exact .inr rfl
        · exact .inl h
    · split at h
      · split at h
        · exact .inl (List.mem_cons_of_mem _ h)
        · rcases List.mem_cons.1 h with rfl | h
          · exact .inr rfl
          · exact .inl (List.mem_cons_of_mem _ h)
      · rcases List.mem_cons.1 h with rfl | h
        · exact .inl (by simp)
        · rcases ih h with h | h
          · exact .inl (List.mem_cons_of_mem _ h)
          · exact .inr h

/-- A byte write keeps the canonical form. -/
theorem Memory.writeByte_wf (mem : Memory) (a : Nat) (x : Byte) (h : mem.wf = true) :
    (mem.writeByte a x).wf = true := by
  induction mem with
  | nil =>
    unfold Memory.writeByte
    split
    · rfl
    · next hx => exact (Memory.wf_cons a x []).2 ⟨hx, by simp, rfl⟩
  | cons d rest ih =>
    obtain ⟨b, v⟩ := d
    obtain ⟨hv, hlt, hrest⟩ := (Memory.wf_cons b v rest).1 h
    unfold Memory.writeByte
    split
    · next hab =>
      split
      · exact h
      · next hx =>
        refine (Memory.wf_cons a x _).2 ⟨hx, ?_, h⟩
        intro c hc
        rcases List.mem_cons.1 hc with rfl | hc
        · exact hab
        · exact Nat.lt_trans hab (hlt c hc)
    · split
      · next hab =>
        subst hab
        split
        · exact hrest
        · next hx => exact (Memory.wf_cons a x rest).2 ⟨hx, hlt, hrest⟩
      · next h1 h2 =>
        refine (Memory.wf_cons b v _).2 ⟨hv, ?_, ih hrest⟩
        intro c hc
        rcases Memory.mem_writeByte rest a x c hc with hc | hc
        · exact hlt c hc
        · omega

/-! ### Bytes -/

theorem Memory.readByte_writeByte_same (mem : Memory) (a : Nat) (x : Byte) (h : mem.wf = true) :
    (mem.writeByte a x).readByte a = x := by
  induction mem with
  | nil =>
    unfold Memory.writeByte
    split <;> simp_all [Memory.readByte]
  | cons d rest ih =>
    obtain ⟨b, v⟩ := d
    obtain ⟨hv, hlt, hrest⟩ := (Memory.wf_cons b v rest).1 h
    unfold Memory.writeByte
    split
    · next hab => split <;> simp_all [Memory.readByte]
    · split
      · next hab =>
        subst hab
        split
        · next hx => rw [hx]; exact Memory.readByte_below rest a hlt
        · simp [Memory.readByte]
      · next h1 h2 => simp [Memory.readByte, h1, h2, ih hrest]

theorem Memory.readByte_writeByte_other (mem : Memory) (a b : Nat) (x : Byte) (h : mem.wf = true)
    (hab : b ≠ a) : (mem.writeByte a x).readByte b = mem.readByte b := by
  induction mem with
  | nil =>
    unfold Memory.writeByte
    split
    · rfl
    · simp only [Memory.readByte]
      split <;> simp_all
  | cons d rest ih =>
    obtain ⟨c, v⟩ := d
    obtain ⟨hv, hlt, hrest⟩ := (Memory.wf_cons c v rest).1 h
    unfold Memory.writeByte
    split
    · next hac =>
      split
      · rfl
      · rw [Memory.readByte]
        by_cases hba : b < a
        · have : b < c := by omega
          simp [Memory.readByte, hba, this]
        · simp [hba, hab]
    · split
      · next hac =>
        subst hac
        split
        · by_cases hba : b < a
          · rw [Memory.readByte_below rest b (fun e he => Nat.lt_trans hba (hlt e he))]
            simp [Memory.readByte, hba]
          · simp [Memory.readByte, hba, hab]
        · simp [Memory.readByte, hab]
      · next h1 h2 => simp [Memory.readByte, ih hrest]

/-- Equal memories are equal data: canonical memories that read alike are one list. -/
theorem Memory.ext_readByte (mem mem' : Memory) (h : mem.wf = true) (h' : mem'.wf = true)
    (hr : ∀ a, mem.readByte a = mem'.readByte a) : mem = mem' := by
  induction mem generalizing mem' with
  | nil =>
    cases mem' with
    | nil => rfl
    | cons d rest =>
      obtain ⟨b, v⟩ := d
      have hv := ((Memory.wf_cons b v rest).1 h').1
      have := hr b
      simp [Memory.readByte] at this
      exact absurd this.symm hv
  | cons d rest ih =>
    obtain ⟨b, v⟩ := d
    obtain ⟨hv, hlt, hrest⟩ := (Memory.wf_cons b v rest).1 h
    cases mem' with
    | nil =>
      have := hr b
      simp [Memory.readByte] at this
      exact absurd this hv
    | cons d' rest' =>
      obtain ⟨b', v'⟩ := d'
      obtain ⟨hv', hlt', hrest'⟩ := (Memory.wf_cons b' v' rest').1 h'
      have hb : b = b' := by
        rcases Nat.lt_trichotomy b b' with hlt | heq | hgt
        · have := hr b
          simp [Memory.readByte, hlt] at this
          exact absurd this hv
        · exact heq
        · have := hr b'
          simp [Memory.readByte, hgt] at this
          exact absurd this.symm hv'
      subst hb
      have hvv : v = v' := by simpa [Memory.readByte] using hr b
      subst hvv
      congr 1
      refine ih rest' hrest hrest' fun a => ?_
      by_cases hab : a ≤ b
      · rw [Memory.readByte_below rest a (fun e he => Nat.lt_of_le_of_lt hab (hlt e he)),
          Memory.readByte_below rest' a (fun e he => Nat.lt_of_le_of_lt hab (hlt' e he))]
      · have := hr a
        have h1 : ¬ a < b := by omega
        have h2 : a ≠ b := by omega
        simpa [Memory.readByte, h1, h2] using this

/-! ### Words -/

/-- The four bytes of a word make up the word, in either order (20_memory.md R36). -/
theorem bytesWord_wordBytes (o : ByteOrder) (v : Word) :
    bytesWord o (wordBytes o v).1 (wordBytes o v).2.1 (wordBytes o v).2.2.1 (wordBytes o v).2.2.2 = v := by
  cases o <;> simp only [bytesWord, wordBytes] <;>
  · apply BitVec.eq_of_getLsbD_eq
    intro i hi
    simp only [BitVec.getLsbD_append, BitVec.getLsbD_extractLsb']
    interval_cases i <;> rfl

theorem Memory.writeWord_wf (mem : Memory) (o : ByteOrder) (a : Nat) (v : Word) (h : mem.wf = true) :
    (mem.writeWord o a v).wf = true := by
  unfold Memory.writeWord
  exact writeByte_wf _ _ _ (writeByte_wf _ _ _ (writeByte_wf _ _ _ (writeByte_wf _ _ _ h)))

/-- A word write adds no address but its own four. -/
theorem Memory.mem_writeWord (mem : Memory) (o : ByteOrder) (a : Nat) (v : Word) (c : Host.Cell)
    (h : c ∈ mem.writeWord o a v) : c ∈ mem ∨ (a ≤ c.1 ∧ c.1 < a + 4) := by
  unfold Memory.writeWord at h
  rcases mem_writeByte _ _ _ c h with h | h
  · rcases mem_writeByte _ _ _ c h with h | h
    · rcases mem_writeByte _ _ _ c h with h | h
      · rcases mem_writeByte _ _ _ c h with h | h
        · exact .inl h
        · exact .inr (by omega)
      · exact .inr (by omega)
    · exact .inr (by omega)
  · exact .inr (by omega)

theorem Memory.readByte_writeWord_other (mem : Memory) (o : ByteOrder) (a b : Nat) (v : Word)
    (h : mem.wf = true) (hb : b < a ∨ a + 4 ≤ b) :
    (mem.writeWord o a v).readByte b = mem.readByte b := by
  unfold Memory.writeWord
  rw [readByte_writeByte_other _ _ _ _ (writeByte_wf _ _ _ (writeByte_wf _ _ _ (writeByte_wf _ _ _ h)))
      (by omega),
    readByte_writeByte_other _ _ _ _ (writeByte_wf _ _ _ (writeByte_wf _ _ _ h)) (by omega),
    readByte_writeByte_other _ _ _ _ (writeByte_wf _ _ _ h) (by omega),
    readByte_writeByte_other _ _ _ _ h (by omega)]

/-- A word read back is the word written, in either byte order (20_memory.md R36). -/
theorem Memory.readWord_writeWord_same (mem : Memory) (o : ByteOrder) (a : Nat) (v : Word)
    (h : mem.wf = true) : (mem.writeWord o a v).readWord o a = v := by
  have h1 := writeByte_wf mem a (wordBytes o v).1 h
  have h2 := writeByte_wf _ (a + 1) (wordBytes o v).2.1 h1
  have h3 := writeByte_wf _ (a + 2) (wordBytes o v).2.2.1 h2
  conv_rhs => rw [← bytesWord_wordBytes o v]
  unfold Memory.readWord Memory.writeWord
  simp only
  congr 1
  · rw [readByte_writeByte_other _ _ _ _ h3 (by omega), readByte_writeByte_other _ _ _ _ h2 (by omega),
      readByte_writeByte_other _ _ _ _ h1 (by omega), readByte_writeByte_same _ _ _ h]
  · rw [readByte_writeByte_other _ _ _ _ h3 (by omega), readByte_writeByte_other _ _ _ _ h2 (by omega),
      readByte_writeByte_same _ _ _ h1]
  · rw [readByte_writeByte_other _ _ _ _ h3 (by omega), readByte_writeByte_same _ _ _ h2]
  · rw [readByte_writeByte_same _ _ _ h3]

/-- A word that shares no byte with the word written reads as before. -/
theorem Memory.readWord_writeWord_other (mem : Memory) (o : ByteOrder) (a b : Nat) (v : Word)
    (h : mem.wf = true) (hb : b + 4 ≤ a ∨ a + 4 ≤ b) :
    (mem.writeWord o a v).readWord o b = mem.readWord o b := by
  unfold Memory.readWord
  rw [readByte_writeWord_other _ _ _ _ _ h (by omega), readByte_writeWord_other _ _ _ _ _ h (by omega),
    readByte_writeWord_other _ _ _ _ _ h (by omega), readByte_writeWord_other _ _ _ _ _ h (by omega)]

/-! ### The primitives of D0 -/

theorem legalWord_iff (c : RunConfig) (a : Nat) :
    legalWord c a = true ↔ a % 4 = 0 ∧ c.memBase ≤ a ∧ a + 4 ≤ c.memBase + c.memSize := by
  simp [legalWord, and_assoc]

theorem getWord_legal {m : State} {addr : Word} (h : legalWord m.cfg addr.toNat = true) :
    m.getWord addr = .ok (m.mem.readWord m.cfg.byteOrder addr.toNat) := by
  simp [State.getWord, h]

theorem getWord_illegal {m : State} {addr : Word} (h : legalWord m.cfg addr.toNat = false) :
    m.getWord addr = .error (.addressError addr) := by
  simp [State.getWord, h]

theorem setWord_legal {m : State} {addr : Word} (v : Word) (h : legalWord m.cfg addr.toNat = true) :
    m.setWord addr v = .ok (m.withMem (m.mem.writeWord m.cfg.byteOrder addr.toNat v)) := by
  simp [State.setWord, h]

theorem setWord_illegal {m : State} {addr : Word} (v : Word) (h : legalWord m.cfg addr.toNat = false) :
    m.setWord addr v = .error (.addressError addr) := by
  simp [State.setWord, h]

theorem getWord_congr {m u : State} (hc : u.cfg = m.cfg) (hm : u.mem = m.mem) (addr : Word) :
    u.getWord addr = m.getWord addr := by
  simp [State.getWord, hc, hm]

end Sys2Proof.Machine
end

