-- ==== Sys2Proof/Laws/Operands.lean ====
section
/-! SUPPORT. The value functions: what each one computes, in the integers or bit by bit. -/

namespace Sys2Proof.Machine

/-! ### Primality (43_custom_ops.md R104) -/

/-- The halved search covers exactly the odd candidates `k, k + 2, …` whose square is at most `n`. -/
theorem noOddDivisor_iff (n depth k : Nat) :
    noOddDivisor n depth k = true ↔
      ∀ j, j < 2 ^ depth → (k + 2 * j) * (k + 2 * j) ≤ n → ¬ (k + 2 * j) ∣ n := by
  induction depth generalizing k with
  | zero =>
    simp only [noOddDivisor, Bool.or_eq_true, decide_eq_true_eq, pow_zero, Nat.lt_one_iff, forall_eq,
      Nat.mul_zero, Nat.add_zero, Nat.dvd_iff_mod_eq_zero]
    constructor
    · rintro (h | h) hle
      · omega
      · exact h
    · intro h
      by_cases hk : n < k * k
      · exact .inl hk
      · exact .inr (h (by omega))
  | succ d ih =>
    unfold noOddDivisor
    split
    · next hk =>
      simp only [true_iff]
      intro j _ hle
      have : k * k ≤ (k + 2 * j) * (k + 2 * j) := Nat.mul_le_mul (by omega) (by omega)
      omega
    · rw [Bool.and_eq_true, ih, ih]
      have hpow : 2 ^ (d + 1) = 2 * 2 ^ d := by rw [pow_succ]; omega
      constructor
      · rintro ⟨hlo, hhi⟩ j hj
        by_cases hjd : j < 2 ^ d
        · exact hlo j hjd
        · have := hhi (j - 2 ^ d) (by omega)
          have he : k + 2 ^ (d + 1) + 2 * (j - 2 ^ d) = k + 2 * j := by omega
          rwa [he] at this
      · intro h
        refine ⟨fun j hj => h j (by omega), fun j hj => ?_⟩
        have := h (2 ^ d + j) (by omega)
        have he : k + 2 * (2 ^ d + j) = k + 2 ^ (d + 1) + 2 * j := by omega
        rwa [he] at this

/-- R7's `is_prime` is the library's primality. -/
theorem IsPrime_natCast (n : Nat) : IsPrime (n : Int) ↔ n.Prime := by
  rw [Nat.prime_def]
  unfold IsPrime
  constructor
  · rintro ⟨h2, h⟩
    refine ⟨by omega, fun k hk => ?_⟩
    have hpos : 0 < k := Nat.pos_of_dvd_of_pos hk (by omega)
    have hle : k ≤ n := Nat.le_of_dvd (by omega) hk
    by_contra hne
    exact h k (by omega) (by omega) (Int.natCast_dvd_natCast.2 hk)
  · rintro ⟨h2, h⟩
    refine ⟨by omega, fun k hk2 hkn hk => ?_⟩
    obtain ⟨j, rfl⟩ := Int.eq_ofNat_of_zero_le (by omega : 0 ≤ k)
    rcases h j (Int.natCast_dvd_natCast.1 hk) with h | h <;> omega

/-- The procedure decides primality of every integer a signed 32-bit word can hold. -/
theorem isPrime_iff (n : Int) (hn : n < 2 ^ 31) : isPrime n = true ↔ IsPrime n := by
  by_cases h2 : 2 ≤ n
  swap
  · simp [isPrime, IsPrime, h2]
  obtain ⟨p, rfl⟩ := Int.eq_ofNat_of_zero_le (by omega : 0 ≤ n)
  rw [IsPrime_natCast, Nat.prime_def_le_sqrt]
  simp only [isPrime, h2, decide_true, Bool.true_and, Bool.or_eq_true, Bool.and_eq_true,
    decide_eq_true_eq, Int.toNat_natCast, noOddDivisor_iff]
  constructor
  · rintro (h | ⟨hodd, h⟩)
    · refine ⟨by omega, fun m hm2 hm => ?_⟩
      have := Nat.le_sqrt.1 hm
      nlinarith
    · refine ⟨by omega, fun m hm2 hm hdvd => ?_⟩
      have hsq := Nat.le_sqrt.1 hm
      have hm16 : m < 65536 := by
        by_contra hlt
        have : 65536 * 65536 ≤ m * m := Nat.mul_le_mul (by omega) (by omega)
        omega
      by_cases hmo : m % 2 = 0
      · have : 2 ∣ p := Nat.dvd_trans (Nat.dvd_of_mod_eq_zero hmo) hdvd
        omega
      · refine h ((m - 3) / 2) (by omega) ?_ ?_ <;>
          rw [show 3 + 2 * ((m - 3) / 2) = m by omega] <;> assumption
  · rintro ⟨_, h⟩
    by_cases hp2 : p = 2
    · exact .inl (by omega)
    · refine .inr ⟨?_, fun j _ hle hdvd => ?_⟩
      · intro heven
        by_cases hp3 : p < 4
        · omega
        · exact h 2 (by omega) (Nat.le_sqrt.2 (by omega)) (by omega)
      · exact h (3 + 2 * j) (by omega) (Nat.le_sqrt.2 hle) hdvd

theorem primeFlag_eq (v : Word) [Decidable (IsPrime v.toInt)] :
    primeFlag v = if IsPrime v.toInt then 1 else 0 := by
  have := isPrime_iff v.toInt (by have := BitVec.toInt_lt (x := v); simpa using this)
  unfold primeFlag
  by_cases h : IsPrime v.toInt <;> simp [this, h]

/-! ### Immediates and addresses -/

theorem sext32_toInt (v : Int) : (sext32 v).toInt = signed16 v := by
  unfold sext32 signed16 field16
  rw [BitVec.toInt_signExtend_of_le (by decide), BitVec.toInt_ofInt]

theorem sext32_eq_ofInt (v : Int) : sext32 v = BitVec.ofInt 32 (signed16 v) := by
  rw [← sext32_toInt, BitVec.ofInt_toInt]

/-- 20_memory.md R37 in the integers. -/
theorem effectiveAddress_eq (b : Word) (off : Int) :
    effectiveAddress b off = BitVec.ofInt 32 (b.toInt + signed16 off) := by
  rw [BitVec.ofInt_add, BitVec.ofInt_toInt, ← sext32_eq_ofInt]
  rfl

/-- 42_branch_pc.md R93 in the integers. -/
theorem branchResolve_eq (pc : Word) (v : Int) :
    branchResolve pc v = BitVec.ofInt 32 (pc.toNat + 4 + 4 * signed16 v) := by
  unfold branchResolve
  have h4 : sext32 v <<< 2 = BitVec.ofInt 32 (4 * signed16 v) := by
    rw [BitVec.ofInt_mul, ← sext32_eq_ofInt]
    apply BitVec.eq_of_toNat_eq
    simp [BitVec.toNat_shiftLeft, Nat.shiftLeft_eq, Nat.mul_comm]
  rw [h4, BitVec.ofInt_add, BitVec.ofInt_add]
  simp

/-- 30_encoding.md R58's last sentence in the integers. -/
theorem branchOperand_eq (v : Int) : branchOperand v = v % 65536 := by
  unfold branchOperand field16
  rw [BitVec.toNat_ofInt]
  omega

/-- A decoded operand is passed unchanged (30_encoding.md R58 c). -/
theorem branchOperand_of_decoded {v : Int} (h0 : 0 ≤ v) (h : v < 65536) : branchOperand v = v := by
  rw [branchOperand_eq]
  omega

/-- The resolver sees the same 16 bits whether or not the operand was narrowed before. -/
@[simp] theorem branchResolve_branchOperand (pc : Word) (v : Int) :
    branchResolve pc (branchOperand v) = branchResolve pc v := by
  have h : field16 (branchOperand v) = field16 v := by
    rw [branchOperand, field16, BitVec.ofInt_natCast, BitVec.ofNat_toNat, BitVec.setWidth_eq]
  simp only [branchResolve, sext32, h]

/-- A branch target is as aligned as the pc (42_branch_pc.md R94 a). -/
theorem branchResolve_aligned (pc : Word) (v : Int) (h : pc.toNat % 4 = 0) :
    (branchResolve pc v).toNat % 4 = 0 := by
  rw [branchResolve_eq, BitVec.toNat_ofInt]
  omega

theorem nextPc_aligned (pc : Word) (request : Option Int) (h : pc.toNat % 4 = 0) :
    (nextPc pc request).toNat % 4 = 0 := by
  cases request with
  | none => simp only [nextPc, BitVec.toNat_add]; simp; omega
  | some v => exact branchResolve_aligned pc v h

/-! ### Custom values -/

/-- Bit `i` of the reversal is bit `31 - i` (43_custom_ops.md R103). -/
theorem rev32_getLsbD (v : Word) (i : Nat) (h : i < 32) : (rev32 v).getLsbD i = v.getLsbD (31 - i) := by
  unfold rev32
  rw [BitVec.getLsbD_reverse, BitVec.getMsbD_eq_getLsbD]
  simp [h]

/-- GRUB's mask in the integers (43_custom_ops.md R101). -/
theorem low8_toNat (v : Int) : ((low8 v).toNat : Int) = v % 256 := by
  unfold low8 field16
  have h255 : (0x00FF : BitVec 16).toNat = 2 ^ 8 - 1 := rfl
  rw [BitVec.toNat_setWidth, BitVec.toNat_and, h255, Nat.and_two_pow_sub_one_eq_mod, BitVec.toNat_ofInt]
  omega

end Sys2Proof.Machine
end

