-- ==== Sys2Proof/Laws/Registers.lean ====
section
/-! SUPPORT. The register file: range check, read after write (10_state.md R10 to R13). -/

namespace Sys2Proof.Machine

theorem isRegIndex_iff (n : Int) : isRegIndex n = true ↔ 0 ≤ n ∧ n < 32 := by
  simp [isRegIndex]

theorem isField16_iff (n : Int) : isField16 n = true ↔ 0 ≤ n ∧ n < 65536 := by
  simp [isField16]

/-! ### The range check -/

theorem toRegIdx?_eq_some (n : Int) (r : RegIdx) : toRegIdx? n = some r ↔ n = (r : Nat) := by
  unfold toRegIdx?
  split
  · next h =>
    rw [Option.some.injEq, Fin.ext_iff]
    constructor <;> intro h' <;> simp only at * <;> omega
  · next h => constructor
              · intro h'; cases h'
              · intro h'; have := r.isLt; omega

theorem toRegIdx?_eq_none (n : Int) : toRegIdx? n = none ↔ isRegIndex n = false := by
  unfold toRegIdx?
  split <;> simp_all [isRegIndex]

theorem toRegIdx?_of_isRegIndex {n : Int} (h : isRegIndex n = true) :
    ∃ r : RegIdx, toRegIdx? n = some r ∧ n = (r : Nat) := by
  obtain ⟨h0, h1⟩ := (isRegIndex_iff n).1 h
  refine ⟨⟨n.toNat, by omega⟩, ?_, by simp only; omega⟩
  rw [toRegIdx?_eq_some]
  simp only; omega

@[simp] theorem toRegIdx?_natCast (r : RegIdx) : toRegIdx? ((r : Nat) : Int) = some r :=
  (toRegIdx?_eq_some _ _).2 rfl

/-! ### Reads and writes of a checked register -/

theorem readReg_congr {m u : State} (hc : u.cfg = m.cfg) (hr : u.regs = m.regs) (r : RegIdx) :
    u.readReg r = m.readReg r := by
  simp [State.readReg, hc, hr]

theorem readReg_writeReg_same (m : State) (r : RegIdx) (v : Word) :
    (m.writeReg r v).readReg r = if m.cfg.r0Hardwired = true ∧ r = 0 then 0 else v := by
  unfold State.readReg State.writeReg
  split <;> simp_all

theorem readReg_writeReg_other (m : State) (r q : RegIdx) (v : Word) (h : q ≠ r) :
    (m.writeReg r v).readReg q = m.readReg q := by
  unfold State.readReg State.writeReg
  split
  · rfl
  · simp only [Fin.getElem_fin]
    rw [Vector.getElem_set_ne]
    intro h'
    exact h (Fin.ext h'.symm)

/-- A write to a hardwired register 0 changes nothing (10_state.md R13). -/
theorem writeReg_discarded (m : State) (v : Word) (h : m.cfg.r0Hardwired = true) :
    m.writeReg 0 v = m := by
  simp [State.writeReg, h]

/-! ### The primitives of D0 -/

theorem getValue_ok (m : State) (n : Int) (v : Word) :
    m.getValue n = .ok v ↔ ∃ r : RegIdx, n = (r : Nat) ∧ m.readReg r = v := by
  unfold State.getValue
  cases h : toRegIdx? n with
  | none =>
    simp only [reduceCtorEq, false_iff, not_exists, not_and]
    intro r hr
    rw [(toRegIdx?_eq_some n r).2 hr] at h
    cases h
  | some r =>
    have hn := (toRegIdx?_eq_some n r).1 h
    simp only [Except.ok.injEq]
    constructor
    · intro hv; exact ⟨r, hn, hv⟩
    · rintro ⟨q, hq, hv⟩
      have : q = r := Fin.ext (by omega)
      rw [← this]; exact hv

@[simp] theorem getValue_natCast (m : State) (r : RegIdx) :
    m.getValue ((r : Nat) : Int) = .ok (m.readReg r) := by
  simp [State.getValue]

theorem getValue_error {m : State} {n : Int} (h : isRegIndex n = false) :
    m.getValue n = .error (.invalidRegister n) := by
  simp [State.getValue, (toRegIdx?_eq_none n).2 h]

theorem getValue_congr {m u : State} (hc : u.cfg = m.cfg) (hr : u.regs = m.regs) (n : Int) :
    u.getValue n = m.getValue n := by
  unfold State.getValue
  cases toRegIdx? n with
  | none => rfl
  | some r => simp [readReg_congr hc hr]

theorem getValue_writeReg_other (m : State) (r : RegIdx) (v : Word) (n : Int) (h : n ≠ (r : Nat)) :
    (m.writeReg r v).getValue n = m.getValue n := by
  unfold State.getValue
  cases hn : toRegIdx? n with
  | none => rfl
  | some q =>
    have := (toRegIdx?_eq_some n q).1 hn
    have hq : q ≠ r := by
      rintro rfl
      exact h this
    simp [readReg_writeReg_other m r q v hq]

theorem getValue_writeReg_same (m : State) (r : RegIdx) (v : Word) :
    (m.writeReg r v).getValue ((r : Nat) : Int) =
      .ok (if m.cfg.r0Hardwired = true ∧ r = 0 then 0 else v) := by
  rw [getValue_natCast, readReg_writeReg_same]

end Sys2Proof.Machine
end

