-- ==== Sys2Proof/Laws/Exec.lean ====
section
/-! SUPPORT. What the shared operations of the meanings can do, said once each. -/

namespace Sys2Proof.Machine

/-! ### The register check (60_exceptions.md R111) -/

theorem withRegs1_ok (i : Instr) (a : RegIdx) (run : RegIdx → ExecutionOutcome) :
    withRegs1 i ((a : Nat) : Int) run = run a := by
  simp [withRegs1]

theorem withRegs2_ok (i : Instr) (a b : RegIdx) (run : RegIdx → RegIdx → ExecutionOutcome) :
    withRegs2 i ((a : Nat) : Int) ((b : Nat) : Int) run = run a b := by
  simp [withRegs2]

theorem withRegs3_ok (i : Instr) (a b c : RegIdx) (run : RegIdx → RegIdx → RegIdx → ExecutionOutcome) :
    withRegs3 i ((a : Nat) : Int) ((b : Nat) : Int) ((c : Nat) : Int) run = run a b c := by
  simp [withRegs3]

theorem withRegs1_bad (i : Instr) (a : Int) (run : RegIdx → ExecutionOutcome)
    (h : isRegIndex a = false) : withRegs1 i a run = .failed (.invalidRegister (reportedIndex i)) := by
  simp [withRegs1, (toRegIdx?_eq_none a).2 h]

theorem withRegs2_bad (i : Instr) (a b : Int) (run : RegIdx → RegIdx → ExecutionOutcome)
    (h : (isRegIndex a && isRegIndex b) = false) :
    withRegs2 i a b run = .failed (.invalidRegister (reportedIndex i)) := by
  unfold withRegs2
  split
  · next r q ha hb =>
    rw [(toRegIdx?_eq_some a r).1 ha, (toRegIdx?_eq_some b q).1 hb] at h
    simp [isRegIndex] at h
  · rfl

theorem withRegs3_bad (i : Instr) (a b c : Int) (run : RegIdx → RegIdx → RegIdx → ExecutionOutcome)
    (h : (isRegIndex a && isRegIndex b && isRegIndex c) = false) :
    withRegs3 i a b c run = .failed (.invalidRegister (reportedIndex i)) := by
  unfold withRegs3
  split
  · next r q p ha hb hc =>
    rw [(toRegIdx?_eq_some a r).1 ha, (toRegIdx?_eq_some b q).1 hb, (toRegIdx?_eq_some c p).1 hc] at h
    simp [isRegIndex] at h
  · rfl

/-- The index recorded is one of the offending ones (log 9), whichever the free value picks. -/
theorem reportedIndex_mem (i : Instr) (h : badRegisters i ≠ []) : reportedIndex i ∈ badRegisters i := by
  unfold reportedIndex
  split
  · next h' => exact absurd h' h
  · next n h' => simp [h']
  · next n rest _ h' =>
    rw [h']
    have hlt : Config.offenderChoice i % (n :: rest).length < (n :: rest).length :=
      Nat.mod_lt _ (by simp)
    rw [List.getD_eq_getElem _ _ hlt]
    exact List.getElem_mem hlt

/-! ### Conclusions (42_branch_pc.md R95) -/

theorem conclude_completed (i : Instr) (m m' : State) (request : Option Int) :
    conclude i m (.completed m' request) = .next (m'.sequence request) := rfl

theorem conclude_failed (i : Instr) (m : State) (f : Failure) :
    conclude i m (.failed f) = .next (m.enterFault f (instructionWord i)) := rfl

theorem instructionWord_of_wellFormed {i : Instr} (h : i.wellFormed = true) :
    instructionWord i = encode i := by
  simp [instructionWord, h]

/-- Every instruction's execution is its semantic function, concluded. -/
theorem exec_eq_conclude (i : Instr) (m : State) : exec i m = conclude i m (perform i m) := by
  cases i <;> rfl

/-- The engine always answers a next state for an instruction: no stop of its own (60_exceptions.md R119). -/
theorem exec_next (i : Instr) (m : State) : ∃ u, exec i m = .next u := by
  rw [exec_eq_conclude]
  cases perform i m with
  | completed m' r => exact ⟨_, rfl⟩
  | failed f => exact ⟨_, rfl⟩

/-! ### Frames of the two updates -/

/-- A register write, then sequencing, as the claims say it. -/
theorem writesRegister_writeReg (m : State) (r : RegIdx) (v : Word) :
    WritesRegister m ((m.writeReg r v).sequence none) ((r : Nat) : Int) v := by
  have hseq : ∀ n, ((m.writeReg r v).sequence none).getValue n = (m.writeReg r v).getValue n :=
    fun n => getValue_congr rfl rfl n
  have hr : r = 0 ↔ ((r : Nat) : Int) = 0 := by rw [Fin.ext_iff]; simp
  refine ⟨?_, fun n hn => ?_, fun a => ?_, ⟨?_, ?_, ?_, ?_, ?_⟩, ?_, ?_⟩
  · rw [hseq, getValue_writeReg_same, landed]
    simp only [hr]
  · rw [hseq, getValue_writeReg_other m r v n hn]
  all_goals simp [nextPc]

/-- Fault entry as the claims say it (60_exceptions.md R119). -/
theorem faultEntered_enterFault (m : State) (f : Failure) (w : Word) :
    FaultEntered m (m.enterFault f w) f.cause f.badAddr (f.badInst w) :=
  ⟨rfl, rfl, rfl, rfl, rfl, rfl, fun n => getValue_congr rfl rfl n, fun _ => rfl, rfl⟩

/-! ### The three shapes of meanings -/

/-- `x[d] <- f(x[s], x[t])` completes wherever the indices are in range (40_integer_alu.md R70). -/
theorem regReg_next (i : Instr) (d s t : Int) (f : Word → Word → Word) (a b : Word) (m : State)
    (hd : isRegIndex d = true) (hs : m.getValue s = .ok a) (ht : m.getValue t = .ok b) :
    ∃ u, conclude i m (regReg i d s t f m) = .next u ∧ WritesRegister m u d (f a b) := by
  obtain ⟨r, -, rfl⟩ := toRegIdx?_of_isRegIndex hd
  obtain ⟨q, rfl, rfl⟩ := (getValue_ok m s a).1 hs
  obtain ⟨p, rfl, rfl⟩ := (getValue_ok m t b).1 ht
  exact ⟨_, by rw [regReg, withRegs3_ok, conclude_completed], writesRegister_writeReg m r _⟩

/-- `x[d] <- f(x[s])` completes wherever the indices are in range (43_custom_ops.md R100). -/
theorem regOne_next (i : Instr) (d s : Int) (f : Word → Word) (a : Word) (m : State)
    (hd : isRegIndex d = true) (hs : m.getValue s = .ok a) :
    ∃ u, conclude i m (regOne i d s f m) = .next u ∧ WritesRegister m u d (f a) := by
  obtain ⟨r, -, rfl⟩ := toRegIdx?_of_isRegIndex hd
  obtain ⟨q, rfl, rfl⟩ := (getValue_ok m s a).1 hs
  exact ⟨_, by rw [regOne, withRegs2_ok, conclude_completed], writesRegister_writeReg m r _⟩

/-- A load completes wherever its address is legal (41_load_store.md R80). -/
theorem loadWord_next (i : Instr) (t base off : Int) (f : Word → Word) (b v : Word) (m : State)
    (ht : isRegIndex t = true) (hb : m.getValue base = .ok b)
    (hw : m.getWord (effectiveAddress b off) = .ok v) :
    ∃ u, conclude i m (loadWord i t base off f m) = .next u ∧ WritesRegister m u t (f v) := by
  obtain ⟨r, -, rfl⟩ := toRegIdx?_of_isRegIndex ht
  obtain ⟨q, rfl, rfl⟩ := (getValue_ok m base b).1 hb
  exact ⟨_, by rw [loadWord, withRegs2_ok, hw, conclude_completed], writesRegister_writeReg m r _⟩

/-! ### Everything an instruction can do -/

/-- The five ways `execute` can end, with what each one needs (60_exceptions.md R110 to R112, 10_state.md R15). -/
inductive Ending (i : Instr) (m : State) : ExecutionOutcome → Prop where
  /-- The destination register is written. -/
  | register (r : RegIdx) (v : Word) (hd : destOf i = some ((r : Nat) : Int)) :
    Ending i m (.completed (m.writeReg r v) none)
  /-- ST stores a word at a legal address. -/
  | store (q p : RegIdx) (off : Int) (hi : i = .st ((q : Nat) : Int) ((p : Nat) : Int) off)
    (hl : legalWord m.cfg (effectiveAddress (m.readReg p) off).toNat = true) :
    Ending i m (.completed (m.withMem (m.mem.writeWord m.cfg.byteOrder
      (effectiveAddress (m.readReg p) off).toNat (m.readReg q))) none)
  /-- BEQ requests a branch or not. -/
  | branch (q p : RegIdx) (target : Int) (hi : i = .beq ((q : Nat) : Int) ((p : Nat) : Int) target) :
    Ending i m (.completed m (if m.readReg q = m.readReg p then some (branchOperand target) else none))
  /-- A register operand is out of range. -/
  | badRegister (h : i.registers.all isRegIndex = false) :
    Ending i m (.failed (.invalidRegister (reportedIndex i)))
  /-- The effective address is misaligned or outside the extent. -/
  | badAddress (q p : RegIdx) (off : Int)
    (hi : accessOf i = some (((q : Nat) : Int), ((p : Nat) : Int), off))
    (hl : legalWord m.cfg (effectiveAddress (m.readReg p) off).toNat = false) :
    Ending i m (.failed (.addressError (effectiveAddress (m.readReg p) off)))

theorem regReg_ending (i : Instr) (d s t : Int) (f : Word → Word → Word) (m : State)
    (hr : i.registers = [d, s, t]) (hd : destOf i = some d) : Ending i m (regReg i d s t f m) := by
  cases h : (isRegIndex d && isRegIndex s && isRegIndex t) with
  | false =>
    rw [regReg, withRegs3_bad _ _ _ _ _ h]
    exact .badRegister (by simpa [hr, Bool.and_assoc] using h)
  | true =>
    simp only [Bool.and_eq_true] at h
    obtain ⟨r, -, rfl⟩ := toRegIdx?_of_isRegIndex h.1.1
    obtain ⟨q, -, rfl⟩ := toRegIdx?_of_isRegIndex h.1.2
    obtain ⟨p, -, rfl⟩ := toRegIdx?_of_isRegIndex h.2
    rw [regReg, withRegs3_ok]
    exact .register r _ hd

theorem regOne_ending (i : Instr) (d s : Int) (f : Word → Word) (m : State)
    (hr : i.registers = [d, s]) (hd : destOf i = some d) : Ending i m (regOne i d s f m) := by
  cases h : (isRegIndex d && isRegIndex s) with
  | false =>
    rw [regOne, withRegs2_bad _ _ _ _ h]
    exact .badRegister (by simpa [hr] using h)
  | true =>
    simp only [Bool.and_eq_true] at h
    obtain ⟨r, -, rfl⟩ := toRegIdx?_of_isRegIndex h.1
    obtain ⟨q, -, rfl⟩ := toRegIdx?_of_isRegIndex h.2
    rw [regOne, withRegs2_ok]
    exact .register r _ hd

theorem loadWord_ending (i : Instr) (t base off : Int) (f : Word → Word) (m : State)
    (hr : i.registers = [t, base]) (hd : destOf i = some t) (ha : accessOf i = some (t, base, off)) :
    Ending i m (loadWord i t base off f m) := by
  cases h : (isRegIndex t && isRegIndex base) with
  | false =>
    rw [loadWord, withRegs2_bad _ _ _ _ h]
    exact .badRegister (by simpa [hr] using h)
  | true =>
    simp only [Bool.and_eq_true] at h
    obtain ⟨r, -, rfl⟩ := toRegIdx?_of_isRegIndex h.1
    obtain ⟨p, -, rfl⟩ := toRegIdx?_of_isRegIndex h.2
    rw [loadWord, withRegs2_ok]
    cases hl : legalWord m.cfg (effectiveAddress (m.readReg p) off).toNat with
    | true => rw [getWord_legal hl]; exact .register r _ hd
    | false => rw [getWord_illegal hl]; exact .badAddress r p off ha hl

/-- The inversion lemma of `perform`, and through `exec_eq_conclude` of `exec`. -/
theorem perform_ending (i : Instr) (m : State) : Ending i m (perform i m) := by
  cases i with
  | add d s t => exact regReg_ending (.add d s t) d s t _ m rfl rfl
  | sub d s t => exact regReg_ending (.sub d s t) d s t _ m rfl rfl
  | and d s t => exact regReg_ending (.and d s t) d s t _ m rfl rfl
  | or d s t => exact regReg_ending (.or d s t) d s t _ m rfl rfl
  | xor d s t => exact regReg_ending (.xor d s t) d s t _ m rfl rfl
  | addi t s imm16 => exact regOne_ending (.addi t s imm16) t s (fun a => a + sext32 imm16) m rfl rfl
  | tripled d s => exact regOne_ending (.tripled d s) d s (fun a => a * 3) m rfl rfl
  | deep d s => exact regOne_ending (.deep d s) d s _ m rfl rfl
  | prim d s => exact regOne_ending (.prim d s) d s _ m rfl rfl
  | ld t base off => exact loadWord_ending (.ld t base off) t base off _ m rfl rfl rfl
  | loaded t base off => exact loadWord_ending (.loaded t base off) t base off _ m rfl rfl rfl
  | grub t imm16 =>
    cases h : isRegIndex t with
    | false =>
      rw [perform, semGrub, withRegs1_bad _ _ _ h]
      exact .badRegister (by simpa [Instr.registers] using h)
    | true =>
      obtain ⟨r, -, rfl⟩ := toRegIdx?_of_isRegIndex h
      rw [perform, semGrub, withRegs1_ok]
      exact .register r _ rfl
  | st t base off =>
    cases h : (isRegIndex t && isRegIndex base) with
    | false =>
      rw [perform, semSt, withRegs2_bad _ _ _ _ h]
      exact .badRegister (by simpa [Instr.registers] using h)
    | true =>
      simp only [Bool.and_eq_true] at h
      obtain ⟨q, -, rfl⟩ := toRegIdx?_of_isRegIndex h.1
      obtain ⟨p, -, rfl⟩ := toRegIdx?_of_isRegIndex h.2
      rw [perform, semSt, withRegs2_ok]
      cases hl : legalWord m.cfg (effectiveAddress (m.readReg p) off).toNat with
      | true => rw [setWord_legal _ hl]; exact .store q p off rfl hl
      | false => rw [setWord_illegal _ hl]; exact .badAddress q p off rfl hl
  | beq s t target =>
    cases h : (isRegIndex s && isRegIndex t) with
    | false =>
      rw [perform, semBeq, withRegs2_bad _ _ _ _ h]
      exact .badRegister (by simpa [Instr.registers] using h)
    | true =>
      simp only [Bool.and_eq_true] at h
      obtain ⟨q, -, rfl⟩ := toRegIdx?_of_isRegIndex h.1
      obtain ⟨p, -, rfl⟩ := toRegIdx?_of_isRegIndex h.2
      rw [perform, semBeq, withRegs2_ok]
      exact .branch q p target rfl

/-- The inversion lemma of `exec`: an instruction completes and is sequenced, or enters a fault. -/
theorem exec_ending {i : Instr} {m u : State} (h : exec i m = .next u) :
    (∃ m' r, Ending i m (.completed m' r) ∧ u = m'.sequence r) ∨
      ∃ f, Ending i m (.failed f) ∧ u = m.enterFault f (instructionWord i) := by
  rw [exec_eq_conclude] at h
  have hp := perform_ending i m
  cases he : perform i m with
  | completed m' r => rw [he] at h hp; cases h; exact .inl ⟨m', r, hp, rfl⟩
  | failed f => rw [he] at h hp; cases h; exact .inr ⟨f, hp, rfl⟩

end Sys2Proof.Machine
end

