-- ==== Sys2Proof/Laws/PerInstr.lean ====
section
/-! SUPPORT. Per instruction: its encoded word carries the literal bits of its row of 30_encoding.md R55. -/

namespace Sys2Proof.Laws

open Sys2Proof.Machine

/-! ### The literal bits of an encoded word -/

theorem encodeR_and_mask3 (s t d : BitVec 5) (f : BitVec 6) :
    encodeR s t d f &&& 0xFC0007FF#32 = f.setWidth 32 := by
  apply BitVec.eq_of_getLsbD_eq
  intro i hi
  rw [BitVec.getLsbD_and]
  simp only [encodeR, BitVec.getLsbD_append, BitVec.getLsbD_setWidth]
  interval_cases i <;> simp

theorem encodeR_and_mask2 (s d : BitVec 5) (f : BitVec 6) :
    encodeR s 0 d f &&& 0xFC1F07FF#32 = f.setWidth 32 := by
  apply BitVec.eq_of_getLsbD_eq
  intro i hi
  rw [BitVec.getLsbD_and]
  simp only [encodeR, BitVec.getLsbD_append, BitVec.getLsbD_setWidth]
  interval_cases i <;> simp

theorem encodeI_and_mask (o : BitVec 6) (s t : BitVec 5) (imm : BitVec 16) :
    encodeI o s t imm &&& 0xFC000000#32 = o ++ (0 : BitVec 26) := by
  apply BitVec.eq_of_getLsbD_eq
  intro i hi
  rw [BitVec.getLsbD_and]
  simp only [encodeI, BitVec.getLsbD_append]
  interval_cases i <;> simp

theorem encodeI_and_maskGrub (o : BitVec 6) (s : BitVec 5) (imm : BitVec 16) :
    encodeI o s 0 imm &&& 0xFC1F0000#32 = o ++ (0 : BitVec 26) := by
  apply BitVec.eq_of_getLsbD_eq
  intro i hi
  rw [BitVec.getLsbD_and]
  simp only [encodeI, BitVec.getLsbD_append]
  interval_cases i <;> simp

/-- The encoded word of `i`, whatever its operands, matches the descriptor of its mnemonic. -/
def EncodedWord.Statement (i : Instr) : Prop :=
  ∃ d ∈ instructionSet, d.mnemonic = i.mnemonic ∧ d.matchesWord (encode i) = true

/-- A word matches a row whose mask and match are the numbers R55 prints. -/
theorem matchesWord_of (d : Descriptor) (w mask mtch : Word) (h : templateMask d.template = mask)
    (h' : templateMatch d.template = mtch) (hw : w &&& mask = mtch) : d.matchesWord w = true := by
  simp [Descriptor.matchesWord, h, h', hw]

theorem EncodedWord.add (d s t : Int) : EncodedWord.Statement (.add d s t) :=
  ⟨⟨"ADD", .rFormat, templateR3 1⟩, by simp [instructionSet], rfl,
    matchesWord_of _ _ 0xFC0007FF 0x00000001 (by decide) (by decide) ((encodeR_and_mask3 ..).trans (by decide))⟩

theorem EncodedWord.sub (d s t : Int) : EncodedWord.Statement (.sub d s t) :=
  ⟨⟨"SUB", .rFormat, templateR3 2⟩, by simp [instructionSet], rfl,
    matchesWord_of _ _ 0xFC0007FF 0x00000002 (by decide) (by decide) ((encodeR_and_mask3 ..).trans (by decide))⟩

theorem EncodedWord.and (d s t : Int) : EncodedWord.Statement (.and d s t) :=
  ⟨⟨"AND", .rFormat, templateR3 3⟩, by simp [instructionSet], rfl,
    matchesWord_of _ _ 0xFC0007FF 0x00000003 (by decide) (by decide) ((encodeR_and_mask3 ..).trans (by decide))⟩

theorem EncodedWord.or (d s t : Int) : EncodedWord.Statement (.or d s t) :=
  ⟨⟨"OR", .rFormat, templateR3 4⟩, by simp [instructionSet], rfl,
    matchesWord_of _ _ 0xFC0007FF 0x00000004 (by decide) (by decide) ((encodeR_and_mask3 ..).trans (by decide))⟩

theorem EncodedWord.xor (d s t : Int) : EncodedWord.Statement (.xor d s t) :=
  ⟨⟨"XOR", .rFormat, templateR3 5⟩, by simp [instructionSet], rfl,
    matchesWord_of _ _ 0xFC0007FF 0x00000005 (by decide) (by decide) ((encodeR_and_mask3 ..).trans (by decide))⟩

theorem EncodedWord.addi (t s imm16 : Int) : EncodedWord.Statement (.addi t s imm16) :=
  ⟨⟨"ADDI", .iFormat, templateI3 1⟩, by simp [instructionSet], rfl,
    matchesWord_of _ _ 0xFC000000 0x04000000 (by decide) (by decide) ((encodeI_and_mask ..).trans (by decide))⟩

theorem EncodedWord.ld (t base off16 : Int) : EncodedWord.Statement (.ld t base off16) :=
  ⟨⟨"LD", .iFormat, templateI3 2⟩, by simp [instructionSet], rfl,
    matchesWord_of _ _ 0xFC000000 0x08000000 (by decide) (by decide) ((encodeI_and_mask ..).trans (by decide))⟩

theorem EncodedWord.st (t base off16 : Int) : EncodedWord.Statement (.st t base off16) :=
  ⟨⟨"ST", .iFormat, templateI3 3⟩, by simp [instructionSet], rfl,
    matchesWord_of _ _ 0xFC000000 0x0C000000 (by decide) (by decide) ((encodeI_and_mask ..).trans (by decide))⟩

theorem EncodedWord.beq (s t target : Int) : EncodedWord.Statement (.beq s t target) :=
  ⟨⟨"BEQ", .iBranchFormat, templateBeq⟩, by simp [instructionSet], rfl,
    matchesWord_of _ _ 0xFC000000 0x10000000 (by decide) (by decide) ((encodeI_and_mask ..).trans (by decide))⟩

theorem EncodedWord.grub (t imm16 : Int) : EncodedWord.Statement (.grub t imm16) :=
  ⟨⟨"GRUB", .iFormat, templateGrub⟩, by simp [instructionSet], rfl,
    matchesWord_of _ _ 0xFC1F0000 0x40000000 (by decide) (by decide) ((encodeI_and_maskGrub ..).trans (by decide))⟩

theorem EncodedWord.tripled (d s : Int) : EncodedWord.Statement (.tripled d s) :=
  ⟨⟨"TRIPLED", .rFormat, templateR2 32⟩, by simp [instructionSet], rfl,
    matchesWord_of _ _ 0xFC1F07FF 0x00000020 (by decide) (by decide) ((encodeR_and_mask2 ..).trans (by decide))⟩

theorem EncodedWord.loaded (t base off16 : Int) : EncodedWord.Statement (.loaded t base off16) :=
  ⟨⟨"LOADED", .iFormat, templateI3 17⟩, by simp [instructionSet], rfl,
    matchesWord_of _ _ 0xFC000000 0x44000000 (by decide) (by decide) ((encodeI_and_mask ..).trans (by decide))⟩

theorem EncodedWord.deep (d s : Int) : EncodedWord.Statement (.deep d s) :=
  ⟨⟨"DEEP", .rFormat, templateR2 33⟩, by simp [instructionSet], rfl,
    matchesWord_of _ _ 0xFC1F07FF 0x00000021 (by decide) (by decide) ((encodeR_and_mask2 ..).trans (by decide))⟩

theorem EncodedWord.prim (d s : Int) : EncodedWord.Statement (.prim d s) :=
  ⟨⟨"PRIM", .rFormat, templateR2 34⟩, by simp [instructionSet], rfl,
    matchesWord_of _ _ 0xFC1F07FF 0x00000022 (by decide) (by decide) ((encodeR_and_mask2 ..).trans (by decide))⟩

end Sys2Proof.Laws
end

