-- ==== Sys2Proof/Laws/Step.lean ====
section
/-! SUPPORT. What a step can do, said once (42_branch_pc.md R95). -/

namespace Sys2Proof.Machine

theorem stopped_of_running {m : State} (h : m.status = .running) : m.stopped = none := by
  simp [State.stopped, h]

theorem step_halted {m : State} (h : m.status = .halted) : step m = .fault .engineHalted := by
  simp [step, supply, State.stopped, h]

theorem step_faulted {m : State} (h : m.status = .faulted) : step m = .fault .engineFaulted := by
  simp [step, supply, State.stopped, h]

theorem step_atEnd {m : State} (h : m.status = .running) (hpc : m.pc.toNat = m.cfg.progEnd) :
    step m = .next m.halt := by
  simp [step, supply, stopped_of_running h, hpc]

theorem step_fetchError {m : State} {f : Failure} (h : m.status = .running)
    (hpc : m.pc.toNat ≠ m.cfg.progEnd) (hf : fetch m.cfg m.pc = .error f) :
    step m = .next (m.enterFault f 0) := by
  simp [step, supply, stopped_of_running h, hpc, hf]

theorem step_illegal {m : State} {w : Word} (h : m.status = .running)
    (hpc : m.pc.toNat ≠ m.cfg.progEnd) (hf : fetch m.cfg m.pc = .ok w) (hd : decode w = none) :
    step m = .next (m.enterFault (.illegalInstruction w) w) := by
  simp [step, supply, stopped_of_running h, hpc, hf, hd]

theorem step_runs {m : State} {w : Word} {i : Instr} (h : m.status = .running)
    (hpc : m.pc.toNat ≠ m.cfg.progEnd) (hf : fetch m.cfg m.pc = .ok w) (hd : decode w = some i) :
    step m = exec i m := by
  simp [step, supply, stopped_of_running h, hpc, hf, hd]

theorem fetch_error {c : RunConfig} {pc : Word} {f : Failure} (h : fetch c pc = .error f) :
    f = .fetchError pc := by
  unfold fetch at h
  split at h
  · cases h
  · cases h; rfl

/-- The ways a step can answer a next state. -/
inductive StepEnding (m : State) : State → Prop where
  | ends (h : m.pc.toNat = m.cfg.progEnd) : StepEnding m m.halt
  | noFetch (hpc : m.pc.toNat ≠ m.cfg.progEnd) (h : fetch m.cfg m.pc = .error (.fetchError m.pc)) :
    StepEnding m (m.enterFault (.fetchError m.pc) 0)
  | illegal (w : Word) (hpc : m.pc.toNat ≠ m.cfg.progEnd) (h : fetch m.cfg m.pc = .ok w)
    (hd : decode w = none) : StepEnding m (m.enterFault (.illegalInstruction w) w)
  | runs (w : Word) (i : Instr) (u : State) (hpc : m.pc.toNat ≠ m.cfg.progEnd)
    (h : fetch m.cfg m.pc = .ok w) (hd : decode w = some i) (he : exec i m = .next u) : StepEnding m u

/-- The inversion lemma of `step`: only a running engine steps, in one of four ways. -/
theorem step_ending {m u : State} (h : step m = .next u) : m.status = .running ∧ StepEnding m u := by
  cases hs : m.status with
  | halted => rw [step_halted hs] at h; cases h
  | faulted => rw [step_faulted hs] at h; cases h
  | running =>
    refine ⟨rfl, ?_⟩
    by_cases hpc : m.pc.toNat = m.cfg.progEnd
    · rw [step_atEnd hs hpc] at h
      cases h
      exact .ends hpc
    · cases hf : fetch m.cfg m.pc with
      | error f =>
        rw [step_fetchError hs hpc hf] at h
        cases h
        have := fetch_error hf
        subst this
        exact .noFetch hpc hf
      | ok w =>
        cases hd : decode w with
        | none =>
          rw [step_illegal hs hpc hf hd] at h
          cases h
          exact .illegal w hpc hf hd
        | some i =>
          rw [step_runs hs hpc hf hd] at h
          exact .runs w i u hpc hf hd h

end Sys2Proof.Machine
end

