-- ==== Sys2Proof/Machine/Flags.lean ====
section
/-! DEFINITION. There are no flags: "There are no status flags, condition codes or predicate registers"
(10_state.md R18). No instruction computes one, overflow of either kind sets nothing (40_integer_alu.md R70 b),
and BEQ compares two registers directly (42_branch_pc.md R90). This file therefore defines nothing. -/
end

