-- ==== Sys2Proof/Tests/Slice0.lean ====
section
/-! SUPPORT. Small tests, each of one step or one value. Expected results are those of
spec/95_test_vectors.md (section named in the comment) or hand calculation from the rule named. -/

namespace Sys2Proof.Tests

open Sys2Proof.Machine

/-! ### Helpers -/

/-- The reset state with some registers set. -/
def stateWith (l : List (Fin 32 × Word)) : State :=
  l.foldr (fun p m => m.writeReg p.1 p.2) State.reset

/-- The same with register 0 hardwired. -/
def hardwired (m : State) : State := { m with cfg := { m.cfg with r0Hardwired := true } }

/-- The same with a program store and a pc. -/
def running (prog : List Word) (pc : Word) (m : State) : State :=
  { m with cfg := { m.cfg with prog := prog }, pc := pc }

/-- What one field of the next state is; `none` where the step does not answer a next state. -/
def after {α : Type} (o : Host.Outcome State Fault Refusal) (f : State → α) : Option α :=
  match o with
  | .next u => some (f u)
  | .fault _ => none
  | .refused _ => none

/-- The record, the pc and STATUS as numbers: STATUS, CAUSE, BADADDR, BADINST, EPC, pc. -/
def recordOf (m : State) : Nat × Nat × Nat × Nat × Nat × Nat :=
  (m.status.code.toNat, m.cause.code.toNat, m.badAddr.toNat, m.badInst.toNat, m.epc.toNat, m.pc.toNat)

/-- A register of a state as a number. -/
def reg (r : Fin 32) (m : State) : Nat := (m.readReg r).toNat

/-- A memory word of a state as a number. -/
def word (a : Nat) (m : State) : Nat := (m.mem.readWord m.cfg.byteOrder a).toNat

/-! ### Well-formedness: each check refuses an ill-formed term (30_encoding.md R57) -/

theorem test_wellFormed_add : (Instr.add 31 0 31).wellFormed = true ∧ (Instr.add 32 0 0).wellFormed = false ∧
    (Instr.add 0 (-1) 0).wellFormed = false ∧ (Instr.add 0 0 32).wellFormed = false := by decide

theorem test_wellFormed_rest : (Instr.sub 32 0 0).wellFormed = false ∧ (Instr.and 0 32 0).wellFormed = false ∧
    (Instr.or 0 0 32).wellFormed = false ∧ (Instr.xor (-1) 0 0).wellFormed = false ∧
    (Instr.tripled 32 0).wellFormed = false ∧ (Instr.deep 0 32).wellFormed = false ∧
    (Instr.prim 0 (-1)).wellFormed = false := by decide

theorem test_wellFormed_immediate : (Instr.addi 0 0 65535).wellFormed = true ∧
    (Instr.addi 0 0 65536).wellFormed = false ∧ (Instr.ld 0 32 0).wellFormed = false ∧
    (Instr.st 0 0 (-1)).wellFormed = false ∧ (Instr.beq 0 0 65536).wellFormed = false ∧
    (Instr.grub 32 0).wellFormed = false ∧ (Instr.grub 0 65536).wellFormed = false ∧
    (Instr.loaded 32 0 0).wellFormed = false := by decide

/-! ### Decoding: words written bit by bit from 30_encoding.md R55 -/

-- opcode 000000, s 00001, t 00010, d 00011, unused 00000, funct
theorem test_decode_add : decode 0b00000000001000100001100000000001 = some (.add 3 1 2) := by decide

theorem test_decode_sub : decode 0b00000000001000100001100000000010 = some (.sub 3 1 2) := by decide

theorem test_decode_and : decode 0b00000000001000100001100000000011 = some (.and 3 1 2) := by decide

theorem test_decode_or : decode 0b00000000001000100001100000000100 = some (.or 3 1 2) := by decide

theorem test_decode_xor : decode 0b00000000001000100001100000000101 = some (.xor 3 1 2) := by decide

-- opcode 000001, s 00001, f 00010, imm 1111111111111111
theorem test_decode_addi : decode 0b00000100001000101111111111111111 = some (.addi 2 1 65535) := by decide

-- opcode, base 00010, t 00100, offset 8
theorem test_decode_ld : decode 0b00001000010001000000000000001000 = some (.ld 4 2 8) := by decide

theorem test_decode_st : decode 0b00001100010001000000000000001000 = some (.st 4 2 8) := by decide

theorem test_decode_loaded : decode 0b01000100010001000000000000001000 = some (.loaded 4 2 8) := by decide

-- opcode 000100, s 00001, t 00010, target 1111111111111101
theorem test_decode_beq : decode 0b00010000001000101111111111111101 = some (.beq 1 2 65533) := by decide

-- opcode 010000, t 00001 in 25:21, 00000, imm 0x1FF
theorem test_decode_grub : decode 0b01000000001000000000000111111111 = some (.grub 1 511) := by decide

-- opcode 000000, s 00011, 00000, d 00100, 00000, funct 100000
theorem test_decode_tripled : decode 0b00000000011000000010000000100000 = some (.tripled 4 3) := by decide

theorem test_decode_deep : decode 0b00000000100000000010100000100001 = some (.deep 5 4) := by decide

theorem test_decode_prim : decode 0b00000000011000000011000000100010 = some (.prim 6 3) := by decide

-- 95_test_vectors.md 2.8, the illegal rows
theorem test_decode_illegal : [0x00000000, 0x00000006, 0x0000003F, 0x00000800, 0x00221841, 0x00612020,
    0x001F0022, 0x03FFF822, 0x14000000, 0x20000000, 0x40210001, 0x48000000, 0xFFFFFFFF].all
      (fun w => (decode w).isNone) = true := by decide

theorem test_decodeTableWord : decodeTableWord 32 0x47FFFFFF = some (.loaded 31 31 65535) := by decide

-- The masks and matches R55 prints.
theorem test_masks : instructionSet.map (fun d => (templateMask d.template, templateMatch d.template)) =
    [(0xFC0007FF, 0x00000001), (0xFC0007FF, 0x00000002), (0xFC0007FF, 0x00000003), (0xFC0007FF, 0x00000004),
     (0xFC0007FF, 0x00000005), (0xFC000000, 0x04000000), (0xFC000000, 0x08000000), (0xFC000000, 0x0C000000),
     (0xFC000000, 0x10000000), (0xFC1F0000, 0x40000000), (0xFC1F07FF, 0x00000020), (0xFC000000, 0x44000000),
     (0xFC1F07FF, 0x00000021), (0xFC1F07FF, 0x00000022)] := by decide

/-! ### Instructions (95_test_vectors.md 2.1 to 2.6) -/

theorem test_add_wraps :
    after (exec (.add 3 1 2) (stateWith [(1, 0xFFFFFFFF), (2, 1)])) (reg 3) = some 0 := by decide

theorem test_add_doubles :
    after (exec (.add 1 1 1) (stateWith [(1, 0x40000001)])) (reg 1) = some 0x80000002 := by decide

theorem test_sub_order :
    after (exec (.sub 3 2 1) (stateWith [(1, 10), (2, 3)])) (reg 3) = some 0xFFFFFFF9 := by decide

theorem test_and_bits :
    after (exec (.and 3 1 2) (stateWith [(1, 0x0000FF0F), (2, 0x00F0F0FF)])) (reg 3) = some 0x0000F00F := by
  decide

theorem test_or_bits :
    after (exec (.or 3 1 2) (stateWith [(1, 0x0000FF0F), (2, 0x00F0F0FF)])) (reg 3) = some 0x00F0FFFF := by
  decide

theorem test_xor_bits :
    after (exec (.xor 3 1 2) (stateWith [(1, 0x0000FF0F), (2, 0x00F0F0FF)])) (reg 3) = some 0x00F00FF0 := by
  decide

theorem test_addi_negative :
    after (exec (.addi 2 1 0xFF9C) (stateWith [(1, 100)])) (reg 2) = some 0 := by decide

theorem test_addi_least :
    after (exec (.addi 2 1 0x8000) (stateWith [])) (reg 2) = some 0xFFFF8000 := by decide

theorem test_st_word :
    after (exec (.st 4 2 8) (stateWith [(2, 0x100), (4, 0xCAFEF00D)])) (word 0x108) = some 0xCAFEF00D := by
  decide

theorem test_ld_old_base :
    after (exec (.ld 2 2 0) { stateWith [(2, 0x10)] with mem := [(0x10, 0x20)] }) (reg 2) = some 0x20 := by
  decide

theorem test_ld_address_wraps :
    after (exec (.ld 4 2 4) { stateWith [(2, 0xFFFFFFFC)] with mem := [(0, 9)] }) (reg 4) = some 9 := by decide

theorem test_loaded_zero :
    after (exec (.loaded 4 2 8) (stateWith [(2, 0x100)])) (reg 4) = some 0x80000000 := by decide

-- 95_test_vectors.md 2.7: the failure of LD r4, r1, 0 at pc 0x10
theorem test_ld_misaligned :
    after (exec (.ld 4 1 0) (running [] 0x10 (stateWith [(1, 2)]))) recordOf =
      some (2, 2, 2, 0x08240000, 0x10, 0x10) := by decide

theorem test_st_out_of_extent :
    after (exec (.st 4 2 4) (stateWith [(2, 0xFFC)])) recordOf = some (2, 2, 0x1000, 0x0C440004, 0, 0) := by
  decide

theorem test_beq_taken_back :
    after (exec (.beq 1 2 0xFFFD) (running [] 0x10 (stateWith [(1, 7), (2, 7)]))) (fun u => u.pc.toNat) =
      some 8 := by decide

theorem test_beq_not_taken :
    after (exec (.beq 1 2 3) (running [] 0x10 (stateWith [(1, 0xFFFFFFFF), (2, 0xFFFF)])))
      (fun u => u.pc.toNat) = some 0x14 := by decide

theorem test_grub_masks : after (exec (.grub 1 0x1FF) State.reset) (reg 1) = some 0xFF := by decide

theorem test_grub_no_sign : after (exec (.grub 1 0xABCD) State.reset) (reg 1) = some 0xCD := by decide

theorem test_tripled_wraps :
    after (exec (.tripled 4 3) (stateWith [(3, 0x55555556)])) (reg 4) = some 2 := by decide

theorem test_deep_bits :
    after (exec (.deep 5 4) (stateWith [(4, 0x12345678)])) (reg 5) = some 0x1E6A2C48 := by decide +kernel

theorem test_deep_39 : after (exec (.deep 5 4) (stateWith [(4, 39)])) (reg 5) = some 0xE4000000 := by decide +kernel

theorem test_prim_values : [2, 3, 5, 17, 97, 997, 7919].all (fun n => isPrime n) = true ∧
    [-7, 0, 1, 4, 9, 15, 25, 49, 91, 561, 65536].any (fun n => isPrime n) = false := by decide +kernel

theorem test_prim_in_place :
    after (exec (.prim 3 3) (stateWith [(3, 7)])) (reg 3) = some 1 := by decide

-- 2.5: the largest signed value is prime, 46337 squared is not, and the test is signed
theorem test_prim_extremes : primeFlag 0x7FFFFFFF = 1 ∧ primeFlag 0x7FFA6A01 = 0 ∧
    primeFlag 0xFFFFFFFB = 0 := by decide +kernel

-- V-R0 (2.6), both policies
theorem test_r0_ordinary :
    after (exec (.add 1 0 0) (stateWith [(0, 7)])) (reg 1) = some 14 := by decide

theorem test_r0_hardwired : after (exec (.grub 0 7) (hardwired State.reset)) (reg 0) = some 0 := by decide

/-! ### The instruction cycle (95_test_vectors.md part 3, single steps) -/

-- P6: the illegal word 0
theorem test_step_illegal : after (step (running [0] 0 State.reset)) recordOf = some (2, 3, 0, 0, 0, 0) := by
  decide

-- P5: the fetch outside the store
theorem test_step_fetchError :
    after (step (running [0x10000001, 0, 0x10000005] 0x20 State.reset)) recordOf =
      some (2, 4, 0x20, 0, 0x20, 0x20) := by decide

-- The empty program ends HALTED at the first step.
theorem test_step_empty : after (step State.reset) recordOf = some (1, 0, 0, 0, 0, 0) := by decide

-- P1's first word
theorem test_step_grub :
    after (step (State.reset.withFetchWord 32 0x4020000A)) (fun u => (reg 1 u, u.pc.toNat)) =
      some (10, 4) := by decide

theorem test_withFetchWord_stray_pc :
    after (step ({ State.reset with pc := 0xFFFFFFFE }.withFetchWord 32 0x4020000A)) (reg 1) = some 10 := by
  decide

/-! ### Host interface -/

-- 95_test_vectors.md, operand-level drive: execute(ADD, [40, 1, 2]) fails with InvalidRegisterError(40)
theorem test_drive_bad_register : (match drive (.add 40 1 2) State.reset with
    | .next r => some (recordOf r.state)
    | .fault _ => none
    | .refused _ => none) = some (2, 1, 40, 0, 0, 0) := by decide

theorem test_drive_branch : (match drive (.beq 1 2 3) State.reset with
    | .next r => some (r.request, r.state.pc.toNat)
    | .fault _ => none
    | .refused _ => none) = some (some 3, 0) := by decide

-- 30_encoding.md R58: of an operand wider than 16 bits only the low 16 bits reach RequestBranch
theorem test_drive_branch_wide : (match drive (.beq 1 2 0x1FFFD) State.reset with
    | .next r => r.request
    | .fault _ => none
    | .refused _ => none) = some 0xFFFD := by decide

theorem test_hostReset_memory :
    word 8 (hostReset { RunConfig.exampleEmpty with memInit := [(8, 0x01020304), (8, 5), (6, 7)] }) = 0x01020304 := by
  decide

theorem test_byte_orders :
    (Memory.writeWord [] .little 4 0x01020304, Memory.writeWord [] .big 4 0x01020304) =
      (([(4, 4), (5, 3), (6, 2), (7, 1)] : Memory), ([(4, 1), (5, 2), (6, 3), (7, 4)] : Memory)) := by decide

/-! ### Witnesses: for every statement with hypotheses, a state and operands that meet all of them

Each theorem is named after the statement of Certificates/Slice0/Obligations.lean it serves, and meets the
hypotheses of each clause, at a boundary of its range where there is one. -/

/-- Registers 1 to 4 hold 10, 3, 0x100 and 0xCAFEF00D; one word of memory is set; EXCFG. -/
def demo : State :=
  { stateWith [(1, 10), (2, 3), (3, 0x100), (4, 0xCAFEF00D)] with mem := [(0x108, 9)] }

theorem witness_DecodeOfEncode : (Instr.ld 31 0 65535).wellFormed = true := by decide

theorem witness_EncodeOfDecode : decode 0x47FFFFFF = some (.loaded 31 31 65535) := by decide

theorem witness_NoWordMatchesTwoTemplates : ∃ a ∈ instructionSet, a.matchesWord 0x00000001 = true := by decide

theorem witness_IllegalWordsFault : (running [0x00000000] 0 demo).status = .running ∧
    (running [0x00000000] 0 demo).pc.toNat ≠ (running [0x00000000] 0 demo).cfg.progEnd ∧
    fetch (running [0x00000000] 0 demo).cfg 0 = .ok 0 ∧ decode 0 = none :=
  ⟨by decide, by decide, rfl, by decide⟩

theorem witness_CatalogRegistersDistinctTemplates_collides :
    ∃ d e : Descriptor, d.matchesWord 0x00000001 = true ∧ e.matchesWord 0x00000001 = true :=
  ⟨⟨"ADD", .rFormat, templateR3 1⟩, ⟨"ADD2", .rFormat, templateR3 1⟩, by decide, by decide⟩

theorem witness_CatalogRegistersDistinctTemplates_free (d : Descriptor) :
    ∀ e ∈ ([] : List Descriptor), ∀ w, d.matchesWord w = true → e.matchesWord w = false := by simp

theorem witness_RegisterFileReadsAndWrites : isRegIndex 0 = true ∧ isRegIndex 31 = true ∧
    (hardwired demo).cfg.r0Hardwired = true ∧ ((-1 : Int) < 0) ∧ (32 : Int) ≤ 32 := by decide

/-- The first and the last word of EXCFG's extent, and the addresses beside them. -/
theorem witness_WordAccessesCheckedAndStored : demo.mem.wf = true ∧ legalWord demo.cfg 0 = true ∧
    legalWord demo.cfg 0xFFC = true ∧ legalWord demo.cfg 0x1000 = false ∧ legalWord demo.cfg 2 = false := by
  decide

theorem witness_StoredBytesFollowByteOrder : demo.mem.wf = true ∧ demo.cfg.byteOrder = .little ∧
    demo.setWord 0xFFC 5 = .ok (demo.withMem (demo.mem.writeWord .little 0xFFC 5)) :=
  ⟨by decide, by decide, rfl⟩

theorem witness_StoredBytesFollowByteOrder_big :
    let m := { demo with cfg := { demo.cfg with byteOrder := .big } }
    m.mem.wf = true ∧ m.cfg.byteOrder = .big ∧
      m.setWord 0 5 = .ok (m.withMem (m.mem.writeWord .big 0 5)) :=
  ⟨by decide, by decide, rfl⟩

theorem witness_EffectiveAddressIsWrappedSum : signed16 0 = 0 ∧ signed16 32767 = 32767 ∧
    signed16 32768 = -32768 ∧ signed16 65535 = -1 := by decide

-- 95_test_vectors.md 2.4, the resolver alone
theorem witness_BranchTargetIsRelative : (0xFFFFFFFC : Word).toNat % 4 = 0 ∧
    branchResolve 0xFFFFFFFC 0 = 0 ∧ branchResolve 0x00001000 0x7FFF = 0x00021000 ∧
    branchResolve 0 0x8000 = 0xFFFE0004 := by decide

/-- For ADD, SUB, AND, OR and XOR: indices in range, both sources readable. -/
theorem witness_threeRegisterInstructions : isRegIndex 31 = true ∧ demo.getValue 1 = .ok 10 ∧
    demo.getValue 2 = .ok 3 := ⟨by decide, rfl, rfl⟩

/-- For ADDI, TRIPLED, DEEP, PRIM and GRUB. -/
theorem witness_twoRegisterInstructions : isRegIndex 0 = true ∧ demo.getValue 2 = .ok 3 := ⟨by decide, rfl⟩

/-- For LD and LOADED: the word at the effective address is readable. -/
theorem witness_loads : isRegIndex 3 = true ∧ demo.getValue 3 = .ok 0x100 ∧
    demo.getWord (effectiveAddress 0x100 8) = .ok 9 := ⟨by decide, rfl, rfl⟩

/-- For ST and LoadAfterStoreGivesStoredWord. -/
theorem witness_stores : demo.getValue 4 = .ok 0xCAFEF00D ∧ demo.getValue 3 = .ok 0x100 ∧
    legalWord demo.cfg (effectiveAddress 0x100 0xFEFC).toNat = false ∧
    legalWord demo.cfg (effectiveAddress 0x100 0xFF00).toNat = true ∧ demo.mem.wf = true ∧
    isRegIndex 31 = true := ⟨rfl, rfl, by decide, by decide, by decide, by decide⟩

/-- BEQ's two outcomes. -/
theorem witness_BeqRedirectsIffEqual : demo.getValue 1 = .ok 10 ∧ demo.getValue 2 = .ok 3 ∧
    (10 : Word) ≠ 3 := ⟨rfl, rfl, by decide⟩

/-- `RejectsBadRegisters`: each position, below and above the range, and an index in range beside a bad
address. -/
theorem witness_BadRegistersAlwaysRejected :
    (Instr.add 32 1 2).registers.all isRegIndex = false ∧ (Instr.add 1 (-1) 2).registers.all isRegIndex = false ∧
    (Instr.ld 40 41 0).registers.all isRegIndex = false ∧ (Instr.grub 32 0).registers.all isRegIndex = false := by
  decide

/-- `RejectsBadAddress`, with a well-formed instruction: one past the extent, and misaligned. -/
theorem witness_rejectsBadAddress : accessOf (.ld 4 3 0xF00) = some (4, 3, 0xF00) ∧ isRegIndex 4 = true ∧
    demo.getValue 3 = .ok 0x100 ∧ legalWord demo.cfg (effectiveAddress 0x100 0xF00).toNat = false ∧
    legalWord demo.cfg (effectiveAddress 0x100 1).toNat = false ∧ (Instr.ld 4 3 0xF00).wellFormed = true :=
  ⟨rfl, by decide, rfl, by decide, by decide, by decide⟩

theorem witness_GrubWritesLowByte : isRegIndex 31 = true ∧ (1 : BitVec 5) ≠ 0 := by decide

theorem witness_PrimWritesPrimality : IsPrime (3 : Word).toInt ∧ ¬ IsPrime (1 : Word).toInt := by
  constructor
  · refine ⟨by decide, fun k h2 h3 => ?_⟩
    have h3' : k < 3 := h3
    have : k = 2 := by omega
    subst this
    decide
  · rintro ⟨h, -⟩
    exact absurd h (by decide)

theorem witness_DeepTwiceRestores : isRegIndex 5 = true ∧ isRegIndex 6 = true ∧ demo.getValue 1 = .ok 10 ∧
    ((hardwired demo).cfg.r0Hardwired = true → (5 : Int) ≠ 0 ∧ (6 : Int) ≠ 0) :=
  ⟨by decide, by decide, rfl, by decide⟩

theorem witness_DecodedRegistersInRange : decode 0x00221801 = some (.add 3 1 2) ∧
    after (exec (.add 3 1 2) demo) (fun u => u.cause) = some .noFailure ∧ demo.cause ≠ .invalidRegister := by
  decide

theorem witness_OtherInstructionsNeverFail : (Instr.grub 31 65535).wellFormed = true ∧
    accessOf (.grub 31 65535) = none := by decide

/-- A running state whose word at the pc is LD r4, r1, 0 with x[1] = 2: 95_test_vectors.md P3. -/
def badLoad : State := running [0x08240000] 0 (stateWith [(1, 2)])

theorem witness_AddressErrorIffBadAccess : badLoad.cause = .noFailure ∧
    after (step badLoad) (fun u => u.cause) = some .addressError ∧ badLoad.status = .running ∧
    badLoad.pc.toNat ≠ badLoad.cfg.progEnd ∧ fetch badLoad.cfg badLoad.pc = .ok 0x08240000 ∧
    decode 0x08240000 = some (.ld 4 1 0) ∧ accessOf (.ld 4 1 0) = some (4, 1, 0) ∧
    badLoad.getValue 1 = .ok 2 ∧ legalWord badLoad.cfg (effectiveAddress 2 0).toNat = false :=
  ⟨by decide, by decide, by decide, by decide, rfl, by decide, by decide, rfl, by decide⟩

theorem witness_FailuresArePrecise : after (step badLoad) (fun u => u.status) = some .faulted := by decide

/-- A step of ST, whose frame is the stored word, and one that writes a register. -/
theorem witness_EveryInstructionKeepsItsFrame : demo.mem.wf = true ∧
    after (exec (.st 4 3 0) demo) (word 0x100) = some 0xCAFEF00D ∧ demo.getValue 3 = .ok 0x100 ∧
    destOf (.st 4 3 0) = none ∧ destOf (.add 5 1 2) = some 5 :=
  ⟨by decide, by decide, rfl, by decide, by decide⟩

/-- Two states that differ in a register DEEP does not read. -/
theorem witness_ResultUsesOnlySources :
    let m' := demo.writeReg 9 77
    (Instr.deep 5 1).wellFormed = true ∧ m'.cfg = demo.cfg ∧ m'.mem = demo.mem ∧
      (∀ n ∈ sourcesOf (.deep 5 1), m'.getValue n = demo.getValue n) ∧
      after (exec (.deep 5 1) demo) (fun u => u.status) = some .running ∧
      after (exec (.deep 5 1) m') (fun u => u.status) = some .running := by
  refine ⟨by decide, rfl, rfl, ?_, by decide, by decide⟩
  intro n hn
  simp only [sourcesOf, List.mem_singleton] at hn
  subst hn
  rfl

/-- PcAfterEveryInstruction: a failing, a branching and an advancing instruction. -/
theorem witness_PcAfterEveryInstruction : demo.status = .running ∧
    after (exec (.ld 4 1 1) demo) (fun u => u.status) = some .faulted ∧
    after (exec (.beq 1 1 3) demo) (fun u => u.status) = some .running ∧
    demo.getValue 1 = demo.getValue 1 ∧ demo.getValue 1 ≠ demo.getValue 2 := by
  refine ⟨by decide, by decide, by decide, rfl, fun h => ?_⟩
  have h' : (Except.ok 10 : Except Failure Word) = .ok 3 := h
  cases h'

theorem witness_StepRunsDecodedInstruction : badLoad.status = .running ∧
    badLoad.pc.toNat ≠ badLoad.cfg.progEnd ∧ fetch badLoad.cfg badLoad.pc = .ok 0x08240000 ∧
    decode 0x08240000 = some (.ld 4 1 0) := ⟨by decide, by decide, rfl, by decide⟩

theorem witness_StoppedEngineHasNoStep : demo.halt.status = .halted ∧
    (demo.enterFault (.fetchError 0) 0).status = .faulted := by decide

theorem witness_RunEndsHaltedOrFaulted : State.reset.status = .running ∧
    State.reset.pc.toNat = State.reset.cfg.progEnd ∧ badLoad.pc.toNat ≠ badLoad.cfg.progEnd := by decide

/-- A store whose last word is fetched, and a pc on each wrong side: misaligned, below, above. -/
theorem witness_FetchReadsStoreOrFails :
    let c := { RunConfig.exampleEmpty with progBase := 8, prog := [1, 2] }
    (12 : Word).toNat % 4 = 0 ∧ c.progBase.toNat ≤ (8 : Word).toNat ∧
      (12 : Word).toNat < c.progBase.toNat + 4 * c.prog.length ∧ c.progEnd = 16 ∧ (9 : Word).toNat % 4 ≠ 0 ∧
      (4 : Word).toNat < c.progBase.toNat ∧ c.progEnd ≤ (20 : Word).toNat ∧ (20 : Word).toNat ≠ c.progEnd := by
  decide

theorem witness_StepsKeepProgramStore : after (step badLoad) (fun u => u.cfg.prog) = some [0x08240000] := by
  decide

theorem witness_PlacedWordRunsNext : decode 0x4020000A = some (.grub 1 10) := by decide

/-- A state that meets the invariant and steps: the first word is GRUB r1, 10. -/
theorem witness_StepKeepsInv : (running [0x4020000A] 0 State.reset).Inv ∧
    after (step (running [0x4020000A] 0 State.reset)) (reg 1) = some 10 := by
  refine ⟨⟨by decide, ?_, by decide, by decide, ?_⟩, by decide⟩
  · intro c hc
    cases hc
  · exact ⟨rfl, rfl, rfl, rfl⟩

theorem witness_HostResetMeetsInv :
    { RunConfig.exampleEmpty with r0Hardwired := true, memInit := [(0xFFC, 7), (0x1000, 7)] }.wf = true := by
  decide

theorem witness_HostResetInstallsValues :
    let c := { RunConfig.exampleEmpty with prog := [0x4020000A], memInit := [(0xFFC, 7)] }
    c.wf = true ∧ c.prog = 0x4020000A :: [] ∧ decode 0x4020000A = some (.grub 1 10) ∧
      legalWord c (0xFFC : Word).toNat = true ∧ memInitWord c 0xFFC = 7 := by decide

/-- The same word in both byte orders. -/
theorem witness_ByteOrderIsInvisible :
    SameButByteOrder State.reset { State.reset with cfg := { RunConfig.exampleEmpty with byteOrder := .big } } := by
  refine ⟨rfl, rfl, rfl, ⟨rfl, rfl, rfl, rfl, rfl⟩, fun addr => ?_⟩
  simp only [State.getWord, State.reset]
  rfl

theorem witness_DriveRunsRuleWithoutPc : demo.status = .running ∧ demo.getValue 1 = .ok 10 ∧
    (match drive (.ld 4 1 0) demo with
      | .next r => r.failure
      | .fault _ => none
      | .refused _ => none) = some (.addressError 10) ∧
    (match drive (.add 4 1 32) demo with
      | .next r => r.failure
      | .fault _ => none
      | .refused _ => none) = some (.invalidRegister 32) ∧
    (match drive (.add 4 1 1) demo with
      | .next r => r.failure.isNone
      | .fault _ => false
      | .refused _ => false) = true := ⟨by decide, rfl, by decide, by decide, by decide⟩

end Sys2Proof.Tests
end

/-! Proofs of the family 10_state.md: the register primitives. -/

namespace Sys2Proof.Machine

/-- D0's `updateRegister` on an index in range is the checked write (10_state.md R12). -/
@[simp] theorem updateRegister_natCast (m : State) (r : RegIdx) (v : Word) :
    m.updateRegister ((r : Nat) : Int) v = .ok (m.writeReg r v) := by
  simp [State.updateRegister]

theorem updateRegister_error {m : State} {n : Int} (v : Word) (h : isRegIndex n = false) :
    m.updateRegister n v = .error (.invalidRegister n) := by
  simp [State.updateRegister, (toRegIdx?_eq_none n).2 h]

theorem isRegIndex_eq_false_iff (n : Int) : isRegIndex n = false ↔ n < 0 ∨ 32 ≤ n := by
  rw [← Bool.not_eq_true, isRegIndex_iff]
  omega

/-- Read after write in the claims' words: `landed` tests the operand for 0 where the register file tests the
checked index (10_state.md R12, R13). -/
theorem getValue_writeReg_eq_landed (m : State) (r : RegIdx) (v : Word) :
    (m.writeReg r v).getValue ((r : Nat) : Int) = .ok (landed m ((r : Nat) : Int) v) := by
  have hr : r = 0 ↔ ((r : Nat) : Int) = 0 := by rw [Fin.ext_iff]; simp
  rw [getValue_writeReg_same, landed]
  simp only [hr]

theorem writeReg_sameRecord (m : State) (r : RegIdx) (v : Word) : SameRecord m (m.writeReg r v) := by
  simp [SameRecord]

/-- A write whose operand is 0 is discarded where register 0 is hardwired (10_state.md R13). -/
theorem writeReg_eq_self_of_hardwired {m : State} {r : RegIdx} (v : Word)
    (h : m.cfg.r0Hardwired = true ∧ ((r : Nat) : Int) = 0) : m.writeReg r v = m := by
  obtain ⟨hhard, hzero⟩ := h
  obtain rfl : r = 0 := Fin.ext (by simpa using hzero)
  exact writeReg_discarded m v hhard

/-- Settles O8: an index in range names a register, so the rules of the checked read and write apply; any other
index fails the range check of both primitives. -/
theorem registerFileReadsAndWrites : Obligations.RegisterFileReadsAndWrites := by
  unfold Obligations.RegisterFileReadsAndWrites
  refine ⟨fun m r => ?_, fun m n v hn => ?_, fun m n v hn => ?_⟩
  · rw [getValue_natCast, State.readReg]
  · obtain ⟨r, -, rfl⟩ := toRegIdx?_of_isRegIndex hn
    exact ⟨m.writeReg r v, updateRegister_natCast m r v, getValue_writeReg_eq_landed m r v,
      getValue_writeReg_other m r v, writeReg_eq_self_of_hardwired v, State.writeReg_cfg m r v,
      State.writeReg_pc m r v, State.writeReg_mem m r v, writeReg_sameRecord m r v⟩
  · have hbad : isRegIndex n = false := (isRegIndex_eq_false_iff n).2 hn
    exact ⟨getValue_error hbad, updateRegister_error v hbad⟩

end Sys2Proof.Machine

/-! Proofs of the family 20_memory.md: the word accesses. -/

namespace Sys2Proof.Machine

theorem withMem_sameRecord (m : State) (mem : Memory) : SameRecord m (m.withMem mem) := by
  simp [SameRecord]

/-- Read after write at a legal address, through the checked read (20_memory.md R34, R35). -/
theorem getWord_withMem_writeWord_same {m : State} {addr : Word} (v : Word)
    (hlegal : legalWord m.cfg addr.toNat = true) (hwf : m.mem.wf = true) :
    (m.withMem (m.mem.writeWord m.cfg.byteOrder addr.toNat v)).getWord addr = .ok v := by
  rw [getWord_legal (by simpa using hlegal)]
  simp [Memory.readWord_writeWord_same _ _ _ _ hwf]

/-- The frame of a word write: it reaches the four bytes of its word only (20_memory.md R31, R35). -/
theorem withMem_writeWord_sameMemoryBut {m : State} (o : ByteOrder) (a : Nat) (v : Word)
    (hwf : m.mem.wf = true) : SameMemoryBut m (m.withMem (m.mem.writeWord o a v)) a :=
  fun b hb => Memory.readByte_writeWord_other m.mem o a b v hwf hb

/-- Settles O9: the check of both primitives is the claim's condition. Where it passes, the new state is the old
one with the word written, so read after write and the frame of a word write apply; where it fails, neither
primitive reaches memory. -/
theorem wordAccessesCheckedAndStored : Obligations.WordAccessesCheckedAndStored := by
  unfold Obligations.WordAccessesCheckedAndStored
  intro m addr v
  rw [← legalWord_iff]
  refine ⟨fun hlegal hwf => ?_, fun hbad => ?_⟩
  · exact ⟨m.withMem (m.mem.writeWord m.cfg.byteOrder addr.toNat v), setWord_legal v hlegal,
      getWord_withMem_writeWord_same v hlegal hwf, withMem_writeWord_sameMemoryBut _ _ v hwf,
      Memory.writeWord_wf _ _ _ v hwf, State.withMem_cfg m _, State.withMem_regs m _, State.withMem_pc m _,
      withMem_sameRecord m _⟩
  · have hillegal : legalWord m.cfg addr.toNat = false := Bool.eq_false_iff.2 hbad
    exact ⟨setWord_illegal v hillegal, getWord_illegal hillegal⟩

end Sys2Proof.Machine

/-! Proofs of the family 30_encoding.md: the construction of the Instruction Catalog. -/

namespace Sys2Proof.Machine

theorem or_and_absorb {n : Nat} (x y : BitVec n) : x ||| x &&& y = x :=
  BitVec.eq_of_getLsbD_eq fun i _ => by
    rw [BitVec.getLsbD_or, BitVec.getLsbD_and]
    exact sup_inf_self

/-- `a &&& ma = a` says that `a` has no bit outside the mask `ma`. -/
theorem or_and_or_of_and_eq {n : Nat} {a b ma mb : BitVec n} (ha : a &&& ma = a) (hb : b &&& mb = b) :
    (a ||| b) &&& (ma ||| mb) = a ||| b := by
  rw [BitVec.and_or_distrib_right, BitVec.and_or_distrib_left, BitVec.and_or_distrib_left, ha, hb,
    or_and_absorb, BitVec.or_comm _ b, or_and_absorb]

/-- Two bit patterns, each inside its mask, are met by one word exactly when they agree on the positions in both
masks: their union is such a word. -/
theorem agree_on_masks_iff_exists {n : Nat} {a b ma mb : BitVec n} (ha : a &&& ma = a) (hb : b &&& mb = b) :
    a &&& ma &&& mb = b &&& ma &&& mb ↔ ∃ w, w &&& ma = a ∧ w &&& mb = b := by
  have swap (x : BitVec n) : x &&& ma &&& mb = x &&& mb &&& ma := by ac_rfl
  constructor
  · intro h
    have hshared : a &&& mb = b &&& ma := by rwa [swap b, ha, hb] at h
    refine ⟨a ||| b, ?_, ?_⟩
    · rw [BitVec.and_or_distrib_right, ha, ← hshared, or_and_absorb]
    · rw [BitVec.and_or_distrib_right, hb, hshared, BitVec.or_comm, or_and_absorb]
  · rintro ⟨w, rfl, rfl⟩
    ac_rfl

/-- A template's match has no bit outside its mask (30_encoding.md R55). -/
@[simp] theorem templateMatch_and_templateMask (t : List TemplateBit) :
    templateMatch t &&& templateMask t = templateMatch t := by
  induction t with
  | nil => rfl
  | cons bit rest ih =>
    cases bit with
    | ph l => exact ih
    | lit v => exact or_and_or_of_and_eq (by cases v <;> simp) ih

theorem matchesWord_iff (d : Descriptor) (w : Word) :
    d.matchesWord w = true ↔ w &&& templateMask d.template = templateMatch d.template := by
  simp [Descriptor.matchesWord]

/-- The collision test decides R60's definition. -/
theorem collides_iff (a b : Descriptor) :
    a.collides b = true ↔ ∃ w, a.matchesWord w = true ∧ b.matchesWord w = true := by
  simp only [matchesWord_iff, Descriptor.collides, beq_iff_eq]
  exact agree_on_masks_iff_exists (templateMatch_and_templateMask _) (templateMatch_and_templateMask _)

@[simp] theorem collides_self (a : Descriptor) : a.collides a = true := by
  simp [Descriptor.collides]

theorem register_of_collides {cat : List Descriptor} {d e : Descriptor} (he : e ∈ cat)
    (h : d.collides e = true) : register cat d = .error .duplicateEncoding :=
  if_pos (List.any_eq_true.2 ⟨e, he, h⟩)

theorem register_of_free {cat : List Descriptor} {d : Descriptor} (h : ∀ e ∈ cat, d.collides e = false) :
    register cat d = .ok (cat ++ [d]) := by
  simpa [register] using h

/-- A list no member of which collides with an earlier one is registered whole. -/
theorem registerAll_of_pairwise_free {cat ds : List Descriptor}
    (h : (cat ++ ds).Pairwise fun e d => d.collides e = false) : registerAll cat ds = .ok (cat ++ ds) := by
  induction ds generalizing cat with
  | nil => simp [registerAll]
  | cons d rest ih =>
    obtain ⟨-, -, hcross⟩ := List.pairwise_append.1 h
    have hfree : ∀ e ∈ cat, d.collides e = false := fun e he => hcross e he d List.mem_cons_self
    rw [List.append_cons] at h ⊢
    rw [registerAll, register_of_free hfree]
    exact ih h

/-- A list whose first member is already registered fails: a descriptor collides with itself. -/
theorem registerAll_of_head_mem {cat : List Descriptor} {d : Descriptor} (rest : List Descriptor) (h : d ∈ cat) :
    registerAll cat (d :: rest) = .error .duplicateEncoding := by
  rw [registerAll, register_of_collides h (collides_self d)]

/-- No row of R55 collides with an earlier one (30_encoding.md R59, R60). -/
theorem instructionSet_pairwise_free : instructionSet.Pairwise fun e d => d.collides e = false := by
  decide

theorem populate_nil : populate [] = .ok instructionSet :=
  registerAll_of_pairwise_free instructionSet_pairwise_free

theorem populate_instructionSet : populate instructionSet = .error .duplicateEncoding :=
  registerAll_of_head_mem _ List.mem_cons_self

/-- Settles O7: the collision test decides whether a common word exists, so it can replace the words in the two
cases of `register`; the fourteen templates are free of each other, and the first collides with itself. -/
theorem catalogRegistersDistinctTemplates : Obligations.CatalogRegistersDistinctTemplates := by
  unfold Obligations.CatalogRegistersDistinctTemplates
  refine ⟨collides_iff, fun cat d => ⟨?_, fun hfree => ?_⟩, populate_nil, rfl, populate_instructionSet⟩
  · rintro ⟨e, he, hword⟩
    exact register_of_collides he ((collides_iff d e).2 hword)
  · refine register_of_free fun e he => Bool.eq_false_iff.2 fun hcollides => ?_
    obtain ⟨w, hd, hew⟩ := (collides_iff d e).1 hcollides
    exact Bool.eq_false_iff.1 (hfree e he w hd) hew

end Sys2Proof.Machine

/-! Proofs of the family 40_integer_alu.md: the three-register instructions. -/

namespace Sys2Proof.Machine

/-! ### Their words (30_encoding.md R51, R55) -/

theorem decode_encodeR (s t d : BitVec 5) (f : BitVec 6) :
    decode (encodeR s t d f) = decodeR (encodeR s t d f) :=
  if_pos (opcodeOf_encodeR s t d f)

theorem decode_encodeR_add (s t d : BitVec 5) :
    decode (encodeR s t d 1) = some (.add (operandOf d) (operandOf s) (operandOf t)) := by
  rw [decode_encodeR]; simp [decodeR]

theorem decode_encodeR_sub (s t d : BitVec 5) :
    decode (encodeR s t d 2) = some (.sub (operandOf d) (operandOf s) (operandOf t)) := by
  rw [decode_encodeR]; simp [decodeR]

theorem decode_encodeR_and (s t d : BitVec 5) :
    decode (encodeR s t d 3) = some (.and (operandOf d) (operandOf s) (operandOf t)) := by
  rw [decode_encodeR]; simp [decodeR]

theorem decode_encodeR_or (s t d : BitVec 5) :
    decode (encodeR s t d 4) = some (.or (operandOf d) (operandOf s) (operandOf t)) := by
  rw [decode_encodeR]; simp [decodeR]

theorem decode_encodeR_xor (s t d : BitVec 5) :
    decode (encodeR s t d 5) = some (.xor (operandOf d) (operandOf s) (operandOf t)) := by
  rw [decode_encodeR]; simp [decodeR]

/-! ### Rejected operands (60_exceptions.md R111), for every instruction -/

theorem mem_badRegisters {i : Instr} {n : Int} :
    n ∈ badRegisters i ↔ n ∈ i.registers ∧ isRegIndex n = false := by
  simp [badRegisters]

theorem badRegisters_ne_nil {i : Instr} (h : i.registers.all isRegIndex = false) : badRegisters i ≠ [] := by
  obtain ⟨n, hn, hbad⟩ := List.all_eq_false.1 h
  exact List.ne_nil_of_mem (mem_badRegisters.2 ⟨hn, Bool.eq_false_iff.2 hbad⟩)

/-- The register check comes before everything else an instruction does. -/
theorem perform_of_badRegister {i : Instr} (m : State) (h : i.registers.all isRegIndex = false) :
    perform i m = .failed (.invalidRegister (reportedIndex i)) := by
  cases i with
  | add d s t | sub d s t | and d s t | or d s t | xor d s t =>
    exact withRegs3_bad _ _ _ _ _ (by simpa [Instr.registers, Bool.and_assoc] using h)
  | addi a b _ | ld a b _ | st a b _ | beq a b _ | loaded a b _ | tripled a b | deep a b | prim a b =>
    exact withRegs2_bad _ _ _ _ (by simpa [Instr.registers] using h)
  | grub t _ => exact withRegs1_bad _ _ _ (by simpa [Instr.registers] using h)

theorem rejectsBadRegisters (i : Instr) : RejectsBadRegisters i := by
  intro m h
  obtain ⟨hmem, hbad⟩ := mem_badRegisters.1 (reportedIndex_mem i (badRegisters_ne_nil h))
  refine ⟨reportedIndex i, hmem, hbad, _, ?_, faultEntered_enterFault m (.invalidRegister _) (instructionWord i)⟩
  rw [exec_eq_conclude, perform_of_badRegister m h, conclude_failed]

/-! ### Their results -/

/-- Where the value function works bit by bit, so does the instruction. -/
theorem regReg_next_bitwise {i : Instr} {d s t : Int} {f : Word → Word → Word} {g : Bool → Bool → Bool}
    {a b : Word} {m : State} (hbits : ∀ k, (f a b).getLsbD k = g (a.getLsbD k) (b.getLsbD k))
    (hd : isRegIndex d = true) (hs : m.getValue s = .ok a) (ht : m.getValue t = .ok b) :
    ∃ u v, conclude i m (regReg i d s t f m) = .next u ∧ WritesRegister m u d v ∧
      ∀ k, k < 32 → v.getLsbD k = g (a.getLsbD k) (b.getLsbD k) := by
  obtain ⟨u, hnext, hwrites⟩ := regReg_next i d s t f a b m hd hs ht
  exact ⟨u, f a b, hnext, hwrites, fun k _ => hbits k⟩

/-- Settles O13: the sum of the words is the wrapped sum of their signed values. -/
theorem addWritesWrappedSum : Obligations.AddWritesWrappedSum := by
  unfold Obligations.AddWritesWrappedSum
  refine ⟨decode_encodeR_add, fun d s t a b m hd hs ht => ?_, fun d s t => rejectsBadRegisters _⟩
  rw [BitVec.ofInt_add, BitVec.ofInt_toInt, BitVec.ofInt_toInt]
  exact regReg_next (.add d s t) d s t _ a b m hd hs ht

/-- Settles O14: the difference of the words is the wrapped difference of their signed values. -/
theorem subWritesWrappedDifference : Obligations.SubWritesWrappedDifference := by
  unfold Obligations.SubWritesWrappedDifference
  refine ⟨decode_encodeR_sub, fun d s t a b m hd hs ht => ?_, fun d s t => rejectsBadRegisters _⟩
  rw [Int.sub_eq_add_neg, BitVec.ofInt_add, BitVec.ofInt_neg, BitVec.ofInt_toInt, BitVec.ofInt_toInt,
    ← BitVec.sub_eq_add_neg]
  exact regReg_next (.sub d s t) d s t _ a b m hd hs ht

/-- Settles O15: each bit of the conjunction of the words is the and of their bits. -/
theorem andWritesBitwiseAnd : Obligations.AndWritesBitwiseAnd := by
  unfold Obligations.AndWritesBitwiseAnd
  exact ⟨decode_encodeR_and, fun d s t _ _ _ => regReg_next_bitwise fun _ => BitVec.getLsbD_and,
    fun d s t => rejectsBadRegisters _⟩

/-- Settles O16: each bit of the disjunction of the words is the or of their bits. -/
theorem orWritesBitwiseOr : Obligations.OrWritesBitwiseOr := by
  unfold Obligations.OrWritesBitwiseOr
  exact ⟨decode_encodeR_or, fun d s t _ _ _ => regReg_next_bitwise fun _ => BitVec.getLsbD_or,
    fun d s t => rejectsBadRegisters _⟩

/-- Settles O17: each bit of the exclusive disjunction of the words is the exclusive or of their bits. -/
theorem xorWritesBitwiseXor : Obligations.XorWritesBitwiseXor := by
  unfold Obligations.XorWritesBitwiseXor
  exact ⟨decode_encodeR_xor, fun d s t _ _ _ => regReg_next_bitwise fun _ => BitVec.getLsbD_xor,
    fun d s t => rejectsBadRegisters _⟩

end Sys2Proof.Machine

/-! Proofs of the family 41_load_store.md: LD, ST and LOADED. -/

namespace Sys2Proof.Machine

/-! ### Their words (30_encoding.md R52, R55) -/

theorem decode_encodeI_ld (s t : BitVec 5) (i : BitVec 16) :
    decode (encodeI 2 s t i) = some (.ld (operandOf t) (operandOf s) (operandOf i)) := by
  simp [decode]

theorem decode_encodeI_st (s t : BitVec 5) (i : BitVec 16) :
    decode (encodeI 3 s t i) = some (.st (operandOf t) (operandOf s) (operandOf i)) := by
  simp [decode]

theorem decode_encodeI_loaded (s t : BitVec 5) (i : BitVec 16) :
    decode (encodeI 17 s t i) = some (.loaded (operandOf t) (operandOf s) (operandOf i)) := by
  simp [decode]

/-! ### Rejected addresses (60_exceptions.md R112), for every instruction that accesses memory -/

theorem loadWord_of_badAddress (i : Instr) {q p : RegIdx} {off : Int} (f : Word → Word) {m : State}
    (hbad : legalWord m.cfg (effectiveAddress (m.readReg p) off).toNat = false) :
    loadWord i ((q : Nat) : Int) ((p : Nat) : Int) off f m =
      .failed (.addressError (effectiveAddress (m.readReg p) off)) := by
  rw [loadWord, withRegs2_ok, getWord_illegal hbad]

theorem semSt_of_badAddress {q p : RegIdx} {off : Int} {m : State}
    (hbad : legalWord m.cfg (effectiveAddress (m.readReg p) off).toNat = false) :
    semSt ((q : Nat) : Int) ((p : Nat) : Int) off m =
      .failed (.addressError (effectiveAddress (m.readReg p) off)) := by
  rw [semSt, withRegs2_ok, setWord_illegal _ hbad]

/-- The failing access is all that an instruction with a bad address does (41_load_store.md R80 e, f). -/
theorem perform_of_badAddress {i : Instr} {q p : RegIdx} {off : Int} {m : State}
    (hacc : accessOf i = some (((q : Nat) : Int), ((p : Nat) : Int), off))
    (hbad : legalWord m.cfg (effectiveAddress (m.readReg p) off).toNat = false) :
    perform i m = .failed (.addressError (effectiveAddress (m.readReg p) off)) := by
  cases i with
  | ld t base off16 | loaded t base off16 => cases hacc; exact loadWord_of_badAddress _ _ hbad
  | st t base off16 => cases hacc; exact semSt_of_badAddress hbad
  | _ => cases hacc

theorem exec_of_badAddress {i : Instr} {q p : RegIdx} {off : Int} {m : State}
    (hacc : accessOf i = some (((q : Nat) : Int), ((p : Nat) : Int), off))
    (hbad : legalWord m.cfg (effectiveAddress (m.readReg p) off).toNat = false) :
    exec i m = .next (m.enterFault (.addressError (effectiveAddress (m.readReg p) off)) (instructionWord i)) := by
  rw [exec_eq_conclude, perform_of_badAddress hacc hbad, conclude_failed]

theorem rejectsBadAddress (i : Instr) : RejectsBadAddress i := by
  intro m t base off b hacc ht hb hbad
  obtain ⟨q, -, rfl⟩ := toRegIdx?_of_isRegIndex ht
  obtain ⟨p, rfl, rfl⟩ := (getValue_ok m base b).1 hb
  exact ⟨_, _, exec_of_badAddress hacc hbad, faultEntered_enterFault m (.addressError _) (instructionWord i),
    instructionWord_of_wellFormed⟩

/-! ### Their results -/

/-- Sequencing writes the pc only. -/
@[simp] theorem getWord_sequence (m : State) (request : Option Int) (addr : Word) :
    (m.sequence request).getWord addr = m.getWord addr :=
  getWord_congr rfl rfl addr

/-- ST at a legal address writes the word, then the pc advances (41_load_store.md R82). -/
theorem exec_st_legal (q p : RegIdx) {off : Int} {m : State}
    (hlegal : legalWord m.cfg (effectiveAddress (m.readReg p) off).toNat = true) :
    exec (.st ((q : Nat) : Int) ((p : Nat) : Int) off) m =
      .next ((m.withMem (m.mem.writeWord m.cfg.byteOrder (effectiveAddress (m.readReg p) off).toNat
        (m.readReg q))).sequence none) := by
  rw [exec, execSt, semSt, withRegs2_ok, setWord_legal _ hlegal, conclude_completed]

theorem getLsbD_or_signBit (w : Word) (k : Nat) :
    (w ||| 0x80000000).getLsbD k = (w.getLsbD k || decide (k = 31)) := by
  have hmask : (0x80000000 : Word) = BitVec.twoPow 32 31 := rfl
  rw [hmask, BitVec.getLsbD_or, BitVec.getLsbD_twoPow]
  simp [eq_comm]

/-- Settles O19: a load writes the word it read; its two failures are the ones of every access and every register
check. -/
theorem ldWritesLoadedWord : Obligations.LdWritesLoadedWord := by
  unfold Obligations.LdWritesLoadedWord
  exact ⟨decode_encodeI_ld, fun t base off => loadWord_next (.ld t base off) t base off fun v => v,
    fun t base off => rejectsBadAddress _, fun t base off => rejectsBadRegisters _⟩

/-- Settles O20: the next state is the old one with the word written and the pc advanced, so read after write and
the frame of a word write apply. -/
theorem stStoresRegister : Obligations.StStoresRegister := by
  unfold Obligations.StStoresRegister
  refine ⟨decode_encodeI_st, fun t base off b v m ht hb hlegal hwf => ?_, fun t base off => rejectsBadAddress _,
    fun t base off => rejectsBadRegisters _⟩
  obtain ⟨q, rfl, rfl⟩ := (getValue_ok m t v).1 ht
  obtain ⟨p, rfl, rfl⟩ := (getValue_ok m base b).1 hb
  refine ⟨_, exec_st_legal q p hlegal, ?_, withMem_writeWord_sameMemoryBut _ _ _ hwf,
    getValue_congr rfl rfl, ⟨rfl, rfl, rfl, rfl, rfl⟩, rfl, rfl⟩
  rw [getWord_sequence]
  exact getWord_withMem_writeWord_same (m.readReg q) hlegal hwf

/-- Settles O24: as LD; the disjunction with the mask sets bit 31 and leaves every lower bit. -/
theorem loadedWritesWordWithBit31 : Obligations.LoadedWritesWordWithBit31 := by
  unfold Obligations.LoadedWritesWordWithBit31
  refine ⟨decode_encodeI_loaded, fun t base off b w m ht hb hw => ?_, fun t base off => rejectsBadAddress _,
    fun t base off => rejectsBadRegisters _⟩
  obtain ⟨u, hnext, hwrites⟩ := loadWord_next (.loaded t base off) t base off (· ||| 0x80000000) b w m ht hb hw
  refine ⟨u, w ||| 0x80000000, hnext, hwrites, ?_, fun k hk => ?_⟩
  · rw [getLsbD_or_signBit, decide_eq_true rfl, Bool.or_true]
  · rw [getLsbD_or_signBit, decide_eq_false hk.ne, Bool.or_false]

end Sys2Proof.Machine

/-! Proofs of the family 42_branch_pc.md: BEQ, the pc, the instruction cycle and fetch. -/

namespace Sys2Proof.Machine

/-! ### BEQ (R90 to R92) -/

theorem decode_encodeI_beq (s t : BitVec 5) (i : BitVec 16) :
    decode (encodeI 4 s t i) = some (.beq (operandOf s) (operandOf t) (operandOf i)) := by
  simp [decode]

/-- Sequencing writes the pc only, as the claims say it. -/
theorem sequence_frame (m : State) (request : Option Int) :
    SameRegisters m (m.sequence request) ∧ SameMemory m (m.sequence request) ∧
      SameRecord m (m.sequence request) ∧ (m.sequence request).cfg = m.cfg :=
  ⟨getValue_congr rfl rfl, fun _ => rfl, ⟨rfl, rfl, rfl, rfl, rfl⟩, rfl⟩

/-- BEQ leaves the state to sequencing, with a request exactly where the registers are equal. -/
theorem exec_beq (q p : RegIdx) (target : Int) (m : State) :
    exec (.beq ((q : Nat) : Int) ((p : Nat) : Int) target) m =
      .next (m.sequence (if m.readReg q = m.readReg p then some (branchOperand target) else none)) := by
  rw [exec, execBeq, semBeq, withRegs2_ok, conclude_completed]

@[simp] theorem nextPc_none (pc : Word) : nextPc pc none = pc + 4 := rfl

@[simp] theorem nextPc_branchOperand (pc : Word) (target : Int) :
    nextPc pc (some (branchOperand target)) = branchResolve pc target :=
  branchResolve_branchOperand pc target

/-- Settles O21: BEQ only requests a branch or not, so all that changes is the pc that sequencing writes. -/
theorem beqRedirectsIffEqual : Obligations.BeqRedirectsIffEqual := by
  unfold Obligations.BeqRedirectsIffEqual
  refine ⟨decode_encodeI_beq, fun s t target a b m hs ht => ?_, fun s t target => rejectsBadRegisters _⟩
  obtain ⟨q, rfl, rfl⟩ := (getValue_ok m s a).1 hs
  obtain ⟨p, rfl, rfl⟩ := (getValue_ok m t b).1 ht
  refine ⟨_, exec_beq q p target m, ?_, sequence_frame m _⟩
  rw [State.sequence_pc]
  split
  · exact nextPc_branchOperand m.pc target
  · exact nextPc_none m.pc

/-! ### The pc after any instruction (R92, R98) -/

/-- `execute` writes neither the pc nor STATUS: the instruction cycle does (R92, R95). -/
theorem Ending.completed_pc_status {i : Instr} {m m' : State} {request : Option Int}
    (h : Ending i m (.completed m' request)) : m'.pc = m.pc ∧ m'.status = m.status := by
  cases h with
  | register r v hd => exact ⟨State.writeReg_pc m r v, State.writeReg_status m r v⟩
  | store | branch => exact ⟨rfl, rfl⟩

/-- A BEQ that completes with equal registers requests its target (R90). -/
theorem Ending.request_of_equal {s t target : Int} {m m' : State} {request : Option Int}
    (h : Ending (.beq s t target) m (.completed m' request)) (heq : m.getValue s = m.getValue t) :
    request = some (branchOperand target) := by
  cases h with
  | register r v hd => cases hd
  | store q p off hi => cases hi
  | branch q p target' hi =>
    cases hi
    rw [getValue_natCast, getValue_natCast] at heq
    exact if_pos (Except.ok.inj heq)

/-- The only request comes from a BEQ with equal registers (R91). -/
theorem Ending.request_eq_none {i : Instr} {m m' : State} {request : Option Int}
    (h : Ending i m (.completed m' request))
    (hne : ∀ s t target, i = .beq s t target → m.getValue s ≠ m.getValue t) : request = none := by
  cases h with
  | register | store => rfl
  | branch q p target hi =>
    have hvalues := hne _ _ _ hi
    rw [getValue_natCast, getValue_natCast] at hvalues
    exact if_neg fun heq => hvalues (congrArg Except.ok heq)

/-- Settles O36: a completed instruction goes where its request sends it and a failing one enters the fault, which
keeps the pc. -/
theorem pcAfterEveryInstruction : Obligations.PcAfterEveryInstruction := by
  unfold Obligations.PcAfterEveryInstruction
  intro i m u hrun hexec
  obtain ⟨m', request, hend, rfl⟩ | ⟨f, -, rfl⟩ := exec_ending hexec
  · obtain ⟨hpc, hstatus⟩ := hend.completed_pc_status
    rw [State.sequence_pc, State.sequence_status, hpc, hstatus, hrun]
    refine ⟨(nomatch ·), fun _ => ⟨fun s t target hi heq => ?_, fun hne => ?_⟩⟩
    · subst hi
      rw [hend.request_of_equal heq, nextPc_branchOperand]
    · rw [hend.request_eq_none hne, nextPc_none]
  · exact ⟨fun _ => State.enterFault_pc m f _, (nomatch ·)⟩

/-! ### How a run goes on and ends (R95, R96) -/

/-- An instruction never halts the engine: it keeps STATUS or enters FAULTED (60_exceptions.md R119). -/
theorem exec_status {i : Instr} {m u : State} (h : exec i m = .next u) :
    u.status = m.status ∨ u.status = .faulted := by
  obtain ⟨m', request, hend, rfl⟩ | ⟨f, -, rfl⟩ := exec_ending h
  · exact .inl hend.completed_pc_status.2
  · exact .inr rfl

/-- A running engine always has a next state. -/
theorem step_next_of_running {m : State} (hrun : m.status = .running) : ∃ u, step m = .next u := by
  by_cases hpc : m.pc.toNat = m.cfg.progEnd
  · exact ⟨_, step_atEnd hrun hpc⟩
  · cases hf : fetch m.cfg m.pc with
    | error f => exact ⟨_, step_fetchError hrun hpc hf⟩
    | ok w =>
      cases hd : decode w with
      | none => exact ⟨_, step_illegal hrun hpc hf hd⟩
      | some i => rw [step_runs hrun hpc hf hd]; exact exec_next i m

/-- Away from PROG_END a step goes on or faults: it never halts (R96). -/
theorem step_status_of_ne_progEnd {m u : State} (hpc : m.pc.toNat ≠ m.cfg.progEnd) (h : step m = .next u) :
    u.status = .running ∨ u.status = .faulted := by
  obtain ⟨hrun, hend⟩ := step_ending h
  cases hend with
  | ends hend => exact absurd hend hpc
  | noFetch | illegal => exact .inr rfl
  | runs w i _ _ _ _ hexec => exact hrun ▸ exec_status hexec

/-- Settles O39: at PROG_END the step writes STATUS only; elsewhere a next state exists and no way to it halts. -/
theorem runEndsHaltedOrFaulted : Obligations.RunEndsHaltedOrFaulted := by
  unfold Obligations.RunEndsHaltedOrFaulted
  refine fun m hrun => ⟨fun hpc => ?_, fun hpc => ?_⟩
  · exact ⟨m.halt, step_atEnd hrun hpc, rfl, getValue_congr rfl rfl, fun _ => rfl, rfl, rfl, rfl, rfl, rfl, rfl,
      step_halted rfl⟩
  · obtain ⟨u, hstep⟩ := step_next_of_running hrun
    exact ⟨u, hstep, step_status_of_ne_progEnd hpc hstep⟩

/-! ### Fetch (R97) -/

theorem fetch_inside {c : RunConfig} {pc : Word} (halign : pc.toNat % 4 = 0)
    (hbase : c.progBase.toNat ≤ pc.toNat) (hend : pc.toNat < c.progEnd) :
    fetch c pc = .ok (c.prog.getD ((pc.toNat - c.progBase.toNat) / 4) 0) :=
  if_pos ⟨halign, hbase, hend⟩

theorem fetch_outside {c : RunConfig} {pc : Word}
    (h : pc.toNat % 4 ≠ 0 ∨ pc.toNat < c.progBase.toNat ∨ c.progEnd ≤ pc.toNat) :
    fetch c pc = .error (.fetchError pc) :=
  if_neg (by omega)

/-- Settles O40: inside the store the index of the word is below the store's length, so fetch reads a word that is
there; elsewhere the failed fetch is all that the step does. -/
theorem fetchReadsStoreOrFails : Obligations.FetchReadsStoreOrFails := by
  unfold Obligations.FetchReadsStoreOrFails
  refine ⟨fun c pc halign hbase hend => ?_, fun m hrun hpc hout => ?_⟩
  · have hindex : (pc.toNat - c.progBase.toNat) / 4 < c.prog.length := by omega
    refine ⟨_, List.getElem?_eq_getElem hindex, ?_⟩
    rw [fetch_inside halign hbase hend, List.getD_eq_getElem _ _ hindex]
  · exact ⟨_, step_fetchError hrun hpc (fetch_outside hout), faultEntered_enterFault m (.fetchError m.pc) 0⟩

/-! ### The instruction cycle (R95) -/

/-- Settles O37: past the stop check, PROG_END, fetch and decode, the cycle is `exec`. -/
theorem stepRunsDecodedInstruction : Obligations.StepRunsDecodedInstruction := by
  unfold Obligations.StepRunsDecodedInstruction
  exact fun m w i => step_runs

/-- Settles O38: the stop check comes before anything else of the cycle, in both stopped states. -/
theorem stoppedEngineHasNoStep : Obligations.StoppedEngineHasNoStep := by
  unfold Obligations.StoppedEngineHasNoStep
  exact fun m => ⟨step_halted, step_faulted⟩

end Sys2Proof.Machine

/-! Proofs of the family 43_custom_ops.md: TRIPLED, DEEP and PRIM. -/

namespace Sys2Proof.Machine

/-! ### Their words (30_encoding.md R51, R55): bits 20:16 are literal zeros -/

theorem decode_encodeR_tripled (s d : BitVec 5) :
    decode (encodeR s 0 d 32) = some (.tripled (operandOf d) (operandOf s)) := by
  rw [decode_encodeR]; simp [decodeR]

theorem decode_encodeR_deep (s d : BitVec 5) :
    decode (encodeR s 0 d 33) = some (.deep (operandOf d) (operandOf s)) := by
  rw [decode_encodeR]; simp [decodeR]

theorem decode_encodeR_prim (s d : BitVec 5) :
    decode (encodeR s 0 d 34) = some (.prim (operandOf d) (operandOf s)) := by
  rw [decode_encodeR]; simp [decodeR]

/-! ### Their values -/

/-- The low 32 bits of the product are those of the signed product (43_custom_ops.md R102). -/
theorem ofInt_toInt_mul_three (a : Word) : BitVec.ofInt 32 (a.toInt * 3) = a * 3 := by
  rw [BitVec.ofInt_mul, BitVec.ofInt_toInt]
  rfl

theorem primeFlag_of_prime {v : Word} (h : IsPrime v.toInt) : primeFlag v = 1 := by
  classical rw [primeFlag_eq, if_pos h]

theorem primeFlag_of_not_prime {v : Word} (h : ¬ IsPrime v.toInt) : primeFlag v = 0 := by
  classical rw [primeFlag_eq, if_neg h]

/-! ### Their results -/

/-- Settles O23: three times the word is the wrapped triple of its signed value. -/
theorem tripledWritesWrappedTriple : Obligations.TripledWritesWrappedTriple := by
  unfold Obligations.TripledWritesWrappedTriple
  refine ⟨decode_encodeR_tripled, fun d s a m hd hs => ?_, fun d s => rejectsBadRegisters _⟩
  rw [ofInt_toInt_mul_three]
  exact regOne_next (.tripled d s) d s (· * 3) a m hd hs

/-- Settles O25: the word written is `rev32` of the source, whose bits are the source's in reverse. -/
theorem deepWritesReversedBits : Obligations.DeepWritesReversedBits := by
  unfold Obligations.DeepWritesReversedBits
  refine ⟨decode_encodeR_deep, fun d s a m hd hs => ?_, fun d s => rejectsBadRegisters _⟩
  obtain ⟨u, hnext, hwrites⟩ := regOne_next (.deep d s) d s rev32 a m hd hs
  exact ⟨u, rev32 a, hnext, hwrites, rev32_getLsbD a⟩

/-- Settles O26: the word written is `primeFlag` of the source, and trial division up to the square root decides
the primality of every signed word. -/
theorem primWritesPrimality : Obligations.PrimWritesPrimality := by
  unfold Obligations.PrimWritesPrimality
  refine ⟨decode_encodeR_prim, fun d s a m hd hs => ?_, fun d s => rejectsBadRegisters _⟩
  obtain ⟨u, hnext, hwrites⟩ := regOne_next (.prim d s) d s primeFlag a m hd hs
  exact ⟨u, primeFlag a, hnext, hwrites, primeFlag_of_prime, primeFlag_of_not_prime⟩

end Sys2Proof.Machine

/-! Proofs of the family 60_exceptions.md: the address error and the precise failure. -/

namespace Sys2Proof

/-! ### The word a decoded instruction came from (30_encoding.md R55, R57) -/

theorem encodeI_of_opcode {w : Word} {o : BitVec 6} (ho : opcodeOf w = o) :
    encodeI o (s5Of w) (t5Of w) (i16Of w) = w := by
  rw [← ho, word_of_fieldsI]

theorem encodeR_of_funct {w : Word} {f : BitVec 6} (ho : opcodeOf w = 0) (hz : unusedOf w = 0)
    (hf : functOf w = f) : encodeR (s5Of w) (t5Of w) (d5Of w) f = w := by
  rw [encodeR, ← ho, ← hz, ← hf, word_of_fieldsR]

/-- A two-operand row: bits 20:16 are literal zeros (30_encoding.md R51). -/
theorem encodeR_zero_of_funct {w : Word} {f : BitVec 6} (ho : opcodeOf w = 0) (hz : unusedOf w = 0)
    (ht : t5Of w = 0) (hf : functOf w = f) : encodeR (s5Of w) 0 (d5Of w) f = w := by
  rw [← ht, encodeR_of_funct ho hz hf]

theorem wellFormed_encode_of_decodeR {w : Word} {i : Instr} (ho : opcodeOf w = 0) (h : decodeR w = some i) :
    i.wellFormed = true ∧ encode i = w := by
  unfold decodeR at h
  split_ifs at h with hz h1 h2 h3 h4 h5 ht h32 h33 h34
  all_goals
    cases h
    refine ⟨by simp [Instr.wellFormed], ?_⟩
    simp only [encode, field5_operandOf]
  · exact encodeR_of_funct ho (not_not.1 hz) h1
  · exact encodeR_of_funct ho (not_not.1 hz) h2
  · exact encodeR_of_funct ho (not_not.1 hz) h3
  · exact encodeR_of_funct ho (not_not.1 hz) h4
  · exact encodeR_of_funct ho (not_not.1 hz) h5
  · exact encodeR_zero_of_funct ho (not_not.1 hz) (not_not.1 ht) h32
  · exact encodeR_zero_of_funct ho (not_not.1 hz) (not_not.1 ht) h33
  · exact encodeR_zero_of_funct ho (not_not.1 hz) (not_not.1 ht) h34

/-- Every branch of the decoder that answers an instruction has tested all the literal bits of its row. -/
theorem wellFormed_encode_of_decode {w : Word} {i : Instr} (h : decode w = some i) :
    i.wellFormed = true ∧ encode i = w := by
  unfold decode at h
  split_ifs at h with h0 h1 h2 h3 h4 h16 ht h17
  · exact wellFormed_encode_of_decodeR h0 h
  all_goals
    cases h
    refine ⟨by simp [Instr.wellFormed], ?_⟩
    simp only [encode, field5_operandOf, field16_operandOf]
  · exact encodeI_of_opcode h1
  · exact encodeI_of_opcode h2
  · exact encodeI_of_opcode h3
  · exact encodeI_of_opcode h4
  · rw [← ht, encodeI_of_opcode h16]
  · exact encodeI_of_opcode h17

end Sys2Proof

namespace Sys2Proof.Machine

/-- The word an instruction of the cycle records is the one that was fetched (log 16). -/
theorem instructionWord_of_decode {w : Word} {i : Instr} (h : decode w = some i) : instructionWord i = w := by
  obtain ⟨hwf, hword⟩ := wellFormed_encode_of_decode h
  rw [instructionWord_of_wellFormed hwf, hword]

/-! ### Which steps fault (60_exceptions.md R117, R119) -/

theorem Failure.cause_ne_noFailure (f : Failure) : f.cause ≠ .noFailure := by
  cases f <;> nofun

/-- `execute` does not write the record: fault entry does (60_exceptions.md R119). -/
theorem Ending.completed_sameRecord {i : Instr} {m m' : State} {request : Option Int}
    (h : Ending i m (.completed m' request)) : SameRecord m m' := by
  cases h with
  | register r v hd => exact writeReg_sameRecord m r v
  | store => exact withMem_sameRecord m _
  | branch => exact ⟨rfl, rfl, rfl, rfl, rfl⟩

/-- A step that ends FAULTED is a fault entry and nothing else. -/
theorem eq_enterFault_of_step_faulted {m u : State} (h : step m = .next u) (hu : u.status = .faulted) :
    ∃ f w, u = m.enterFault f w := by
  obtain ⟨hrun, hend⟩ := step_ending h
  cases hend with
  | ends => cases hu
  | noFetch | illegal => exact ⟨_, _, rfl⟩
  | runs w i _ _ _ _ hexec =>
    obtain ⟨m', request, hend, rfl⟩ | ⟨f, -, rfl⟩ := exec_ending hexec
    · rw [State.sequence_status, hend.completed_pc_status.2, hrun] at hu
      cases hu
    · exact ⟨f, instructionWord i, rfl⟩

/-- Settles O33: a step that ends FAULTED is a fault entry, which writes the record only, and FAULTED stops the
engine. -/
theorem failuresArePrecise : Obligations.FailuresArePrecise := by
  unfold Obligations.FailuresArePrecise
  intro m u hstep hu
  obtain ⟨f, w, rfl⟩ := eq_enterFault_of_step_faulted hstep hu
  obtain ⟨-, -, -, -, hepc, hpc, hregs, hmem, hcfg⟩ := faultEntered_enterFault m f w
  exact ⟨hregs, hmem, hcfg, hpc, hepc, f.cause_ne_noFailure, step_faulted hu⟩

/-! ### The address error (60_exceptions.md R112) -/

theorem legalWord_eq_false_iff (c : RunConfig) (a : Nat) :
    legalWord c a = false ↔ a % 4 ≠ 0 ∨ a < c.memBase ∨ c.memBase + c.memSize < a + 4 := by
  rw [Bool.eq_false_iff, ne_eq, legalWord_iff]
  omega

theorem isRegIndex_of_accessOf {i : Instr} {t base off : Int} (hacc : accessOf i = some (t, base, off))
    (hwf : i.wellFormed = true) : isRegIndex t = true := by
  cases i with
  | ld t base off16 | st t base off16 | loaded t base off16 =>
    cases hacc
    simp only [Instr.wellFormed, Bool.and_eq_true] at hwf
    obtain ⟨⟨ht, -⟩, -⟩ := hwf
    exact ht
  | _ => cases hacc

/-- The only instruction that raises AddressError is one with a bad address: the other failure of `execute` has
another cause, and completion leaves the record alone. -/
theorem exec_addressError {i : Instr} {m u : State} (hclear : m.cause = .noFailure) (h : exec i m = .next u)
    (hcause : u.cause = .addressError) :
    ∃ t base off b, accessOf i = some (t, base, off) ∧ m.getValue base = .ok b ∧
      legalWord m.cfg (effectiveAddress b off).toNat = false ∧
      FaultEntered m u .addressError (effectiveAddress b off) (instructionWord i) := by
  obtain ⟨m', request, hend, rfl⟩ | ⟨f, hend, rfl⟩ := exec_ending h
  · obtain ⟨-, hsame, -⟩ := hend.completed_sameRecord
    rw [State.sequence_cause, hsame, hclear] at hcause
    cases hcause
  · cases hend with
    | badRegister => cases hcause
    | badAddress q p off hacc hbad =>
      exact ⟨_, _, off, m.readReg p, hacc, getValue_natCast m p, hbad,
        faultEntered_enterFault m (.addressError _) (instructionWord i)⟩

/-- A step has no other source of AddressError than the instruction it runs. -/
theorem step_addressError {m u : State} (hclear : m.cause = .noFailure) (h : step m = .next u)
    (hcause : u.cause = .addressError) :
    ∃ w i, fetch m.cfg m.pc = .ok w ∧ decode w = some i ∧ exec i m = .next u := by
  obtain ⟨-, hend⟩ := step_ending h
  cases hend with
  | ends => exact nomatch hclear.symm.trans hcause
  | noFetch | illegal => cases hcause
  | runs w i _ _ hfetch hdecode hexec => exact ⟨w, i, hfetch, hdecode, hexec⟩

/-- Settles O32: AddressError comes from `execute` of a bad address only, every bad address raises it, and a
decoded instruction's word is the fetched one. -/
theorem addressErrorIffBadAccess : Obligations.AddressErrorIffBadAccess := by
  unfold Obligations.AddressErrorIffBadAccess
  refine ⟨fun m u hclear hstep hcause => ?_, fun m w i t base off b hrun hpc hfetch hdecode hacc hb hbad => ?_,
    legalWord_eq_false_iff⟩
  · obtain ⟨w, i, hfetch, hdecode, hexec⟩ := step_addressError hclear hstep hcause
    obtain ⟨t, base, off, b, hacc, hb, hbad, hfault⟩ := exec_addressError hclear hexec hcause
    rw [instructionWord_of_decode hdecode] at hfault
    exact ⟨w, i, t, base, off, b, hfetch, hdecode, hacc, hb, hbad, hfault⟩
  · obtain ⟨hwf, hword⟩ := wellFormed_encode_of_decode hdecode
    obtain ⟨u, v, hexec, hfault, hv⟩ :=
      rejectsBadAddress i m t base off b hacc (isRegIndex_of_accessOf hacc hwf) hb hbad
    rw [hv hwf, hword] at hfault
    exact ⟨u, (step_runs hrun hpc hfetch hdecode).trans hexec, hfault⟩

end Sys2Proof.Machine

/-! Proofs about the decoder, the encoder and the catalog (30_encoding.md sections 2 to 6). -/

namespace Sys2Proof

/-! ### Decoding what was encoded (R55, R57) -/

theorem decode_encodeI_addi (s t : BitVec 5) (i : BitVec 16) :
    decode (encodeI 1 s t i) = some (.addi (operandOf t) (operandOf s) (operandOf i)) := by
  simp [decode]

theorem decode_encodeI_grub (s : BitVec 5) (i : BitVec 16) :
    decode (encodeI 16 s 0 i) = some (.grub (operandOf s) (operandOf i)) := by
  simp [decode]

/-- GRUB's bits 20:16 are literal zeros (R55). -/
theorem decode_encodeI_grub_of_ne_zero (s : BitVec 5) {t : BitVec 5} (i : BitVec 16) (ht : t ≠ 0) :
    decode (encodeI 16 s t i) = none := by
  simpa [decode] using ht

end Sys2Proof

namespace Sys2Proof.Machine

/-- Settles O2: each row of the decoder gives back the fields of the word, and an operand in its range survives its
field. -/
theorem decodeOfEncode : Obligations.DecodeOfEncode := by
  unfold Obligations.DecodeOfEncode
  intro i hwf
  cases i with
  | add d s t | sub d s t | and d s t | or d s t | xor d s t =>
    simp only [Instr.wellFormed, Bool.and_eq_true] at hwf
    obtain ⟨⟨hd, hs⟩, ht⟩ := hwf
    simp only [encode, decode_encodeR_add, decode_encodeR_sub, decode_encodeR_and, decode_encodeR_or,
      decode_encodeR_xor, operandOf_field5 hd, operandOf_field5 hs, operandOf_field5 ht]
  | tripled d s | deep d s | prim d s =>
    simp only [Instr.wellFormed, Bool.and_eq_true] at hwf
    obtain ⟨hd, hs⟩ := hwf
    simp only [encode, decode_encodeR_tripled, decode_encodeR_deep, decode_encodeR_prim, operandOf_field5 hd,
      operandOf_field5 hs]
  | addi a b imm | ld a b imm | st a b imm | beq a b imm | loaded a b imm =>
    simp only [Instr.wellFormed, Bool.and_eq_true] at hwf
    obtain ⟨⟨ha, hb⟩, himm⟩ := hwf
    simp only [encode, decode_encodeI_addi, decode_encodeI_ld, decode_encodeI_st, decode_encodeI_beq,
      decode_encodeI_loaded, operandOf_field5 ha, operandOf_field5 hb, operandOf_field16 himm]
  | grub t imm16 =>
    simp only [Instr.wellFormed, Bool.and_eq_true] at hwf
    obtain ⟨ht, himm⟩ := hwf
    simp only [encode, decode_encodeI_grub, operandOf_field5 ht, operandOf_field16 himm]

/-- Settles O3: every branch of the decoder that answers has tested the literal bits of its row. -/
theorem encodeOfDecode : Obligations.EncodeOfDecode := by
  unfold Obligations.EncodeOfDecode
  exact fun w i => wellFormed_encode_of_decode

/-- Settles O1: the words are literals, so the decoder computes them. -/
theorem decodesSpecWords : Obligations.DecodesSpecWords := by
  unfold Obligations.DecodesSpecWords
  decide

/-! ### The illegal words (R61) -/

theorem decodeR_eq_none_iff (w : Word) :
    decodeR w = none ↔ unusedOf w ≠ 0 ∨ (functOf w).toNat ∉ [1, 2, 3, 4, 5, 32, 33, 34] ∨
      ((functOf w).toNat ∈ [32, 33, 34] ∧ t5Of w ≠ 0) := by
  have hfunct (n : Nat) (hn : n < 64) : (functOf w).toNat = n ↔ functOf w = BitVec.ofNat 6 n := by
    rw [BitVec.toNat_eq, BitVec.toNat_ofNat, Nat.mod_eq_of_lt hn]
  simp only [List.mem_cons, List.not_mem_nil, or_false, hfunct, Nat.reduceLT]
  unfold decodeR
  split_ifs <;> simp_all
  tauto

theorem decode_eq_none_iff (w : Word) :
    decode w = none ↔
      (opcodeOf w ≠ 0 ∧ opcodeOf w ≠ 1 ∧ opcodeOf w ≠ 2 ∧ opcodeOf w ≠ 3 ∧ opcodeOf w ≠ 4 ∧ opcodeOf w ≠ 16 ∧
        opcodeOf w ≠ 17) ∨
      (opcodeOf w = 0 ∧ decodeR w = none) ∨ (opcodeOf w = 16 ∧ t5Of w ≠ 0) := by
  unfold decode
  split_ifs <;> simp_all

/-- Settles O6: R61's (b), (c) and (d) are the refusals of the R-format group; the step that fetches an illegal
word is a fault entry. -/
theorem illegalWordsFault : Obligations.IllegalWordsFault := by
  unfold Obligations.IllegalWordsFault
  refine ⟨fun w => ?_, fun m w hrun hpc hfetch hdecode => ?_⟩
  · rw [decode_eq_none_iff, decodeR_eq_none_iff, and_or_left, and_or_left, or_assoc, or_assoc]
    exact Iff.rfl
  · exact ⟨_, step_illegal hrun hpc hfetch hdecode, faultEntered_enterFault m (.illegalInstruction w) w⟩

/-! ### The catalog agrees with itself (R59) -/

theorem collides_comm (a b : Descriptor) : a.collides b = b.collides a := by
  rw [Bool.eq_iff_iff, collides_iff, collides_iff]
  simp only [and_comm]

/-- Settles O5: two different rows do not collide, and a word that matches both would make them. -/
theorem noWordMatchesTwoTemplates : Obligations.NoWordMatchesTwoTemplates := by
  unfold Obligations.NoWordMatchesTwoTemplates
  intro w a b ha hb hwa hwb
  by_contra hne
  have hsymm : Std.Symm fun e d : Descriptor => d.collides e = false := ⟨fun e d => (collides_comm e d).trans⟩
  have hfree : b.collides a = false := instructionSet_pairwise_free.forall ha hb hne
  exact Bool.eq_false_iff.1 hfree ((collides_iff b a).2 ⟨w, hwb, hwa⟩)

/-! ### Reading operands off a template (R54) -/

theorem extractLsb'_toNat_succ (w : Word) (k n : Nat) :
    (w.extractLsb' k (n + 1)).toNat = 2 ^ n * (w.getLsbD (n + k)).toNat + (w.extractLsb' k n).toNat := by
  rw [BitVec.extractLsb'_toNat, BitVec.extractLsb'_toNat, Nat.mod_pow_succ, ← Nat.toNat_testBit,
    Nat.testBit_shiftRight, Nat.add_comm k n, BitVec.getLsbD, Nat.add_comm]

@[simp] theorem bitsUnder_litBits (w : Word) (l : Letter) (n v : Nat) (rest : List TemplateBit) (acc : Nat) :
    bitsUnder w l (litBits n v ++ rest) acc = bitsUnder w l rest acc := by
  induction n with
  | zero => rfl
  | succ n ih => simpa [litBits, bitsUnder] using ih

@[simp] theorem bitsUnder_litBits_nil (w : Word) (l : Letter) (n v acc : Nat) :
    bitsUnder w l (litBits n v) acc = acc := by
  simpa [bitsUnder] using bitsUnder_litBits w l n v [] acc

@[simp] theorem bitsUnder_phBits_same (w : Word) (l : Letter) (n : Nat) (rest : List TemplateBit) (acc : Nat) :
    bitsUnder w l (phBits n l ++ rest) acc =
      bitsUnder w l rest (2 ^ n * acc + (w.extractLsb' rest.length n).toNat) := by
  induction n generalizing acc with
  | zero => simp [phBits, Nat.mod_one]
  | succ n ih =>
    have hbit : bitsUnder w l (phBits (n + 1) l ++ rest) acc =
        bitsUnder w l (phBits n l ++ rest) (2 * acc + (w.getLsbD (n + rest.length)).toNat) := by
      simp [phBits, List.replicate_succ, bitsUnder]
    rw [hbit, ih, extractLsb'_toNat_succ]
    congr 1
    ring

@[simp] theorem bitsUnder_phBits_same_nil (w : Word) (l : Letter) (n acc : Nat) :
    bitsUnder w l (phBits n l) acc = 2 ^ n * acc + (w.extractLsb' 0 n).toNat := by
  simpa [bitsUnder] using bitsUnder_phBits_same w l n [] acc

theorem bitsUnder_phBits_other (w : Word) {l l' : Letter} (h : l' ≠ l) (n : Nat) (rest : List TemplateBit)
    (acc : Nat) : bitsUnder w l (phBits n l' ++ rest) acc = bitsUnder w l rest acc := by
  induction n with
  | zero => rfl
  | succ n ih => simpa [phBits, List.replicate_succ, bitsUnder, h] using ih

theorem bitsUnder_phBits_other_nil (w : Word) {l l' : Letter} (h : l' ≠ l) (n acc : Nat) :
    bitsUnder w l (phBits n l') acc = acc := by
  simpa [bitsUnder] using bitsUnder_phBits_other w h n [] acc

@[simp] theorem litBits_length (n v : Nat) : (litBits n v).length = n := by
  induction n with
  | zero => rfl
  | succ n ih => simp [litBits, ih]

@[simp] theorem phBits_length (n : Nat) (l : Letter) : (phBits n l).length = n := List.length_replicate

@[simp] theorem ph_mem_litBits (l : Letter) (n v : Nat) : .ph l ∈ litBits n v ↔ False := by
  induction n with
  | zero => simp [litBits]
  | succ n ih => simpa [litBits] using ih

@[simp] theorem ph_mem_phBits (l l' : Letter) (n : Nat) : .ph l ∈ phBits n l' ↔ n ≠ 0 ∧ l = l' := by
  simp [phBits]

theorem operandsOf_templateR3 (name : String) (tag : Format) (funct : Nat) (w : Word) :
    (Descriptor.mk name tag (templateR3 funct)).operandsOf w =
      [operandOf (d5Of w), operandOf (s5Of w), operandOf (t5Of w)] := by
  simp [Descriptor.operandsOf, templateR3, bitsUnder_phBits_other, operandOf, d5Of, s5Of, t5Of]

theorem operandsOf_templateR2 (name : String) (tag : Format) (funct : Nat) (w : Word) :
    (Descriptor.mk name tag (templateR2 funct)).operandsOf w = [operandOf (d5Of w), operandOf (s5Of w)] := by
  simp [Descriptor.operandsOf, templateR2, bitsUnder_phBits_other, operandOf, d5Of, s5Of]

theorem operandsOf_templateI3 (name : String) (tag : Format) (opcode : Nat) (w : Word) :
    (Descriptor.mk name tag (templateI3 opcode)).operandsOf w =
      [operandOf (t5Of w), operandOf (s5Of w), operandOf (i16Of w)] := by
  simp [Descriptor.operandsOf, templateI3, bitsUnder_phBits_other, bitsUnder_phBits_other_nil, operandOf, t5Of,
    s5Of, i16Of]

theorem operandsOf_templateBeq (name : String) (tag : Format) (w : Word) :
    (Descriptor.mk name tag templateBeq).operandsOf w =
      [operandOf (s5Of w), operandOf (t5Of w), operandOf (i16Of w)] := by
  simp [Descriptor.operandsOf, templateBeq, bitsUnder_phBits_other, bitsUnder_phBits_other_nil, operandOf, t5Of,
    s5Of, i16Of]

theorem operandsOf_templateGrub (name : String) (tag : Format) (w : Word) :
    (Descriptor.mk name tag templateGrub).operandsOf w = [operandOf (s5Of w), operandOf (i16Of w)] := by
  simp [Descriptor.operandsOf, templateGrub, bitsUnder_phBits_other, bitsUnder_phBits_other_nil, operandOf, s5Of,
    i16Of]

/-! ### The word of a row (R51 to R53, R55) -/

/-- A match fixes every field that the mask covers whole. -/
theorem field_of_matchesWord {d : Descriptor} {w mask v : Word} (h : d.matchesWord w = true)
    (hmask : templateMask d.template = mask) (hmatch : templateMatch d.template = v) (k n : Nat)
    (hfield : mask.extractLsb' k n = BitVec.allOnes n) : w.extractLsb' k n = v.extractLsb' k n := by
  rw [← hmatch, ← (matchesWord_iff d w).1 h, hmask, BitVec.extractLsb'_and, hfield, BitVec.and_allOnes]

/-- The word of a three-operand R-format row: everything but its three registers is literal. -/
theorem encodeR_of_matchesWord {d : Descriptor} {w : Word} {f : BitVec 6} (h : d.matchesWord w = true)
    (hmask : templateMask d.template = 0xFC0007FF) (hmatch : templateMatch d.template = encodeR 0 0 0 f) :
    encodeR (s5Of w) (t5Of w) (d5Of w) f = w :=
  encodeR_of_funct ((field_of_matchesWord h hmask hmatch 26 6 (by decide)).trans (opcodeOf_encodeR ..))
    ((field_of_matchesWord h hmask hmatch 6 5 (by decide)).trans (unusedOf_encodeR ..))
    ((field_of_matchesWord h hmask hmatch 0 6 (by decide)).trans (functOf_encodeR ..))

/-- The word of a two-operand R-format row: bits 20:16 are literal too. -/
theorem encodeR_zero_of_matchesWord {d : Descriptor} {w : Word} {f : BitVec 6} (h : d.matchesWord w = true)
    (hmask : templateMask d.template = 0xFC1F07FF) (hmatch : templateMatch d.template = encodeR 0 0 0 f) :
    encodeR (s5Of w) 0 (d5Of w) f = w :=
  encodeR_zero_of_funct ((field_of_matchesWord h hmask hmatch 26 6 (by decide)).trans (opcodeOf_encodeR ..))
    ((field_of_matchesWord h hmask hmatch 6 5 (by decide)).trans (unusedOf_encodeR ..))
    ((field_of_matchesWord h hmask hmatch 16 5 (by decide)).trans (t5Of_encodeR ..))
    ((field_of_matchesWord h hmask hmatch 0 6 (by decide)).trans (functOf_encodeR ..))

/-- The word of an I-format or I_BRANCH-format row with three operands: the opcode is literal. -/
theorem encodeI_of_matchesWord {d : Descriptor} {w : Word} {o : BitVec 6} (h : d.matchesWord w = true)
    (hmask : templateMask d.template = 0xFC000000) (hmatch : templateMatch d.template = encodeI o 0 0 0) :
    encodeI o (s5Of w) (t5Of w) (i16Of w) = w :=
  encodeI_of_opcode ((field_of_matchesWord h hmask hmatch 26 6 (by decide)).trans (opcodeOf_encodeI ..))

/-- The word of GRUB's row: bits 20:16 are literal too. -/
theorem encodeI_zero_of_matchesWord {d : Descriptor} {w : Word} {o : BitVec 6} (h : d.matchesWord w = true)
    (hmask : templateMask d.template = 0xFC1F0000) (hmatch : templateMatch d.template = encodeI o 0 0 0) :
    encodeI o (s5Of w) 0 (i16Of w) = w := by
  have ht : t5Of w = 0 := (field_of_matchesWord h hmask hmatch 16 5 (by decide)).trans (t5Of_encodeI ..)
  rw [← ht]
  exact encodeI_of_opcode ((field_of_matchesWord h hmask hmatch 26 6 (by decide)).trans (opcodeOf_encodeI ..))

/-! ### The decoder agrees with the catalog (R54, R57) -/

/-- The decoder reads the word `w` as the row `d` does. -/
def DecodesAsRow (d : Descriptor) (w : Word) : Prop :=
  (decode w).map (fun i => (i.mnemonic, i.operands)) = some (d.mnemonic, d.operandsOf w)

theorem decodesAsRow_of_eq {d : Descriptor} {v w : Word} {i : Instr} (hword : v = w) (hdecode : decode v = some i)
    (hname : i.mnemonic = d.mnemonic) (hoperands : d.operandsOf w = i.operands) : DecodesAsRow d w := by
  rw [DecodesAsRow, ← hword, hdecode, hword, hoperands, ← hname, Option.map_some]

theorem decodesAsRow_of_matchesWord {d : Descriptor} (hd : d ∈ instructionSet) {w : Word}
    (h : d.matchesWord w = true) : DecodesAsRow d w := by
  simp only [instructionSet, List.mem_cons, List.not_mem_nil, or_false] at hd
  obtain rfl | rfl | rfl | rfl | rfl | rfl | rfl | rfl | rfl | rfl | rfl | rfl | rfl | rfl := hd
  · exact decodesAsRow_of_eq (encodeR_of_matchesWord h (by decide) (by decide)) (decode_encodeR_add ..) rfl
      (operandsOf_templateR3 ..)
  · exact decodesAsRow_of_eq (encodeR_of_matchesWord h (by decide) (by decide)) (decode_encodeR_sub ..) rfl
      (operandsOf_templateR3 ..)
  · exact decodesAsRow_of_eq (encodeR_of_matchesWord h (by decide) (by decide)) (decode_encodeR_and ..) rfl
      (operandsOf_templateR3 ..)
  · exact decodesAsRow_of_eq (encodeR_of_matchesWord h (by decide) (by decide)) (decode_encodeR_or ..) rfl
      (operandsOf_templateR3 ..)
  · exact decodesAsRow_of_eq (encodeR_of_matchesWord h (by decide) (by decide)) (decode_encodeR_xor ..) rfl
      (operandsOf_templateR3 ..)
  · exact decodesAsRow_of_eq (encodeI_of_matchesWord h (by decide) (by decide)) (decode_encodeI_addi ..) rfl
      (operandsOf_templateI3 ..)
  · exact decodesAsRow_of_eq (encodeI_of_matchesWord h (by decide) (by decide)) (decode_encodeI_ld ..) rfl
      (operandsOf_templateI3 ..)
  · exact decodesAsRow_of_eq (encodeI_of_matchesWord h (by decide) (by decide)) (decode_encodeI_st ..) rfl
      (operandsOf_templateI3 ..)
  · exact decodesAsRow_of_eq (encodeI_of_matchesWord h (by decide) (by decide)) (decode_encodeI_beq ..) rfl
      (operandsOf_templateBeq ..)
  · exact decodesAsRow_of_eq (encodeI_zero_of_matchesWord h (by decide) (by decide)) (decode_encodeI_grub ..) rfl
      (operandsOf_templateGrub ..)
  · exact decodesAsRow_of_eq (encodeR_zero_of_matchesWord h (by decide) (by decide)) (decode_encodeR_tripled ..)
      rfl (operandsOf_templateR2 ..)
  · exact decodesAsRow_of_eq (encodeI_of_matchesWord h (by decide) (by decide)) (decode_encodeI_loaded ..) rfl
      (operandsOf_templateI3 ..)
  · exact decodesAsRow_of_eq (encodeR_zero_of_matchesWord h (by decide) (by decide)) (decode_encodeR_deep ..) rfl
      (operandsOf_templateR2 ..)
  · exact decodesAsRow_of_eq (encodeR_zero_of_matchesWord h (by decide) (by decide)) (decode_encodeR_prim ..) rfl
      (operandsOf_templateR2 ..)

/-- The encoded word of every instruction matches its row (R55). -/
theorem encodedWord : (i : Instr) → Laws.EncodedWord.Statement i
  | .add .. => Laws.EncodedWord.add ..
  | .sub .. => Laws.EncodedWord.sub ..
  | .and .. => Laws.EncodedWord.and ..
  | .or .. => Laws.EncodedWord.or ..
  | .xor .. => Laws.EncodedWord.xor ..
  | .addi .. => Laws.EncodedWord.addi ..
  | .ld .. => Laws.EncodedWord.ld ..
  | .st .. => Laws.EncodedWord.st ..
  | .beq .. => Laws.EncodedWord.beq ..
  | .grub .. => Laws.EncodedWord.grub ..
  | .tripled .. => Laws.EncodedWord.tripled ..
  | .loaded .. => Laws.EncodedWord.loaded ..
  | .deep .. => Laws.EncodedWord.deep ..
  | .prim .. => Laws.EncodedWord.prim ..

/-- A word that decodes matches a row: it is the encoding of an instruction. -/
theorem exists_matchesWord_of_decode {w : Word} {i : Instr} (h : decode w = some i) :
    ∃ d ∈ instructionSet, d.matchesWord w = true := by
  obtain ⟨-, rfl⟩ := wellFormed_encode_of_decode h
  obtain ⟨d, hd, -, hmatch⟩ := encodedWord i
  exact ⟨d, hd, hmatch⟩

/-- Settles O4: the row the search finds reads the word as the decoder does, and where it finds none the word is no
encoding. -/
theorem decodeFollowsTemplates : Obligations.DecodeFollowsTemplates := by
  unfold Obligations.DecodeFollowsTemplates
  intro w
  rw [catalogDecode]
  cases hfind : instructionSet.find? fun d => d.matchesWord w with
  | some d =>
    have hmatch : d.matchesWord w = true := List.find?_some (p := fun d : Descriptor => d.matchesWord w) hfind
    exact decodesAsRow_of_matchesWord (List.mem_of_find?_eq_some hfind) hmatch
  | none =>
    cases hdecode : decode w with
    | none => rfl
    | some i =>
      obtain ⟨d, hd, hmatch⟩ := exists_matchesWord_of_decode hdecode
      exact absurd hmatch (List.find?_eq_none.1 hfind d hd)

end Sys2Proof.Machine

/-! Proofs about stored bytes, addresses and branch targets (20_memory.md, 42_branch_pc.md). -/

namespace Sys2Proof.Machine

/-! ### Stored bytes (20_memory.md R36) -/

/-- The `k`th byte of a word, lowest address first. -/
def byteOfWord (o : ByteOrder) (v : Word) (k : Nat) : Byte :=
  match o with
  | .little => v.extractLsb' (8 * k) 8
  | .big => v.extractLsb' (24 - 8 * k) 8

theorem Memory.readByte_writeWord (mem : Memory) (o : ByteOrder) (a : Nat) (v : Word) (h : mem.wf = true) {k : Nat}
    (hk : k < 4) : (mem.writeWord o a v).readByte (a + k) = byteOfWord o v k := by
  have h1 := writeByte_wf mem a (wordBytes o v).1 h
  have h2 := writeByte_wf _ (a + 1) (wordBytes o v).2.1 h1
  have h3 := writeByte_wf _ (a + 2) (wordBytes o v).2.2.1 h2
  unfold Memory.writeWord
  interval_cases k
  · rw [Nat.add_zero a, readByte_writeByte_other _ _ _ _ h3 (by omega), readByte_writeByte_other _ _ _ _ h2 (by omega),
      readByte_writeByte_other _ _ _ _ h1 (by omega), readByte_writeByte_same _ _ _ h]
    cases o <;> rfl
  · rw [readByte_writeByte_other _ _ _ _ h3 (by omega), readByte_writeByte_other _ _ _ _ h2 (by omega),
      readByte_writeByte_same _ _ _ h1]
    cases o <;> rfl
  · rw [readByte_writeByte_other _ _ _ _ h3 (by omega), readByte_writeByte_same _ _ _ h2]
    cases o <;> rfl
  · rw [readByte_writeByte_same _ _ _ h3]
    cases o <;> rfl

/-- A write that succeeds was legal and is the word write. -/
theorem setWord_ok {m u : State} {addr v : Word} (h : m.setWord addr v = .ok u) :
    legalWord m.cfg addr.toNat = true ∧ u = m.withMem (m.mem.writeWord m.cfg.byteOrder addr.toNat v) := by
  cases hl : legalWord m.cfg addr.toNat with
  | true => rw [setWord_legal v hl] at h; cases h; exact ⟨rfl, rfl⟩
  | false => rw [setWord_illegal v hl] at h; cases h

/-- Settles O10: the byte at each of the four addresses is the one the configured order puts there. -/
theorem storedBytesFollowByteOrder : Obligations.StoredBytesFollowByteOrder := by
  unfold Obligations.StoredBytesFollowByteOrder
  intro m u addr v hwf hset
  obtain ⟨-, rfl⟩ := setWord_ok hset
  have hbyte (k : Nat) (hk : k < 4) := Memory.readByte_writeWord m.mem m.cfg.byteOrder addr.toNat v hwf hk
  constructor <;>
  · intro horder k hk
    rw [State.withMem_mem, hbyte k hk, horder]
    rfl

/-! ### Addresses and targets in the integers (20_memory.md R37, 42_branch_pc.md R93) -/

theorem signed16_eq (v : Int) : signed16 v = if v % 65536 < 32768 then v % 65536 else v % 65536 - 65536 := by
  rw [signed16, Int.bmod_def]
  rfl

/-- The signed reading of a word differs from the unsigned one by 0 or 2^32, which the reduction removes. -/
theorem ofInt_toInt_add_toNat (b : Word) (n : Int) :
    ((BitVec.ofInt 32 (b.toInt + n)).toNat : Int) = (b.toNat + n) % 2 ^ 32 := by
  rw [BitVec.toNat_ofInt, BitVec.toInt_eq_toNat_cond]
  split <;> omega

/-- Settles O11: the effective address is the wrapped sum of the signed values, and the low 16 bits of the offset
are read in two's complement. -/
theorem effectiveAddressIsWrappedSum : Obligations.EffectiveAddressIsWrappedSum := by
  unfold Obligations.EffectiveAddressIsWrappedSum
  intro b off
  rw [effectiveAddress_eq, ofInt_toInt_add_toNat, signed16_eq]
  refine ⟨rfl, ?_⟩
  split <;> omega

/-- Settles O12: the target's word is the reduction of the integer sum. -/
theorem branchTargetIsRelative : Obligations.BranchTargetIsRelative := by
  unfold Obligations.BranchTargetIsRelative
  refine fun pc v => ⟨?_, branchResolve_aligned pc v⟩
  rw [branchResolve_eq, BitVec.toNat_ofInt]
  omega

end Sys2Proof.Machine

/-! Proofs about single instructions: ADDI, GRUB, DEEP twice, a load after a store. -/

namespace Sys2Proof.Machine

/-- Settles O18: the sum of the word and the sign-extended immediate is the wrapped sum of their signed values. -/
theorem addiWritesSumWithSignedImmediate : Obligations.AddiWritesSumWithSignedImmediate := by
  unfold Obligations.AddiWritesSumWithSignedImmediate
  refine ⟨decode_encodeI_addi, fun t s imm16 a m ht hs => ?_, fun t s imm16 => rejectsBadRegisters _⟩
  rw [BitVec.ofInt_add, BitVec.ofInt_toInt, ← sext32_eq_ofInt]
  exact regOne_next (.addi t s imm16) t s (· + sext32 imm16) a m ht hs

/-- GRUB's mask as a word (43_custom_ops.md R101). -/
theorem low8_eq_ofInt (v : Int) : low8 v = BitVec.ofInt 32 (v % 256) := by
  apply BitVec.eq_of_toNat_eq
  have hlow := low8_toNat v
  rw [BitVec.toNat_ofInt]
  omega

/-- Settles O22: GRUB writes its masked immediate, and its word leaves no room for a second register. -/
theorem grubWritesLowByte : Obligations.GrubWritesLowByte := by
  unfold Obligations.GrubWritesLowByte
  refine ⟨decode_encodeI_grub, fun s t i => decode_encodeI_grub_of_ne_zero s i, fun t imm16 m ht => ?_,
    fun t imm16 => rejectsBadRegisters _⟩
  obtain ⟨r, -, rfl⟩ := toRegIdx?_of_isRegIndex ht
  rw [← low8_eq_ofInt]
  exact ⟨_, by rw [exec, execGrub, semGrub, withRegs1_ok, conclude_completed], writesRegister_writeReg m r _⟩

@[simp] theorem rev32_rev32 (v : Word) : rev32 (rev32 v) = v := BitVec.reverse_reverse_eq

/-- A write lands whole in a register that is not a hardwired register 0 (10_state.md R13). -/
theorem landed_eq_self {m : State} {d : Int} (h : m.cfg.r0Hardwired = true → d ≠ 0) (v : Word) :
    landed m d v = v :=
  if_neg fun ⟨hhard, hzero⟩ => h hhard hzero

theorem landed_congr {m u : State} (hcfg : u.cfg = m.cfg) (d : Int) (v : Word) : landed u d v = landed m d v := by
  rw [landed, hcfg, ← landed]

/-- Settles O27: the first DEEP leaves the reversal in `d`, the second the reversal of that in `e`. -/
theorem deepTwiceRestores : Obligations.DeepTwiceRestores := by
  unfold Obligations.DeepTwiceRestores
  intro d e s a m hd he hs hzero
  obtain ⟨u, hfirst, hvalue, -, -, -, hcfg, -⟩ := regOne_next (.deep d s) d s rev32 a m hd hs
  rw [landed_eq_self (fun hhard => (hzero hhard).1)] at hvalue
  obtain ⟨v, hsecond, hresult, -⟩ := regOne_next (.deep e d) e d rev32 (rev32 a) u he hvalue
  rw [landed_congr hcfg, landed_eq_self (fun hhard => (hzero hhard).2), rev32_rev32] at hresult
  exact ⟨u, v, hfirst, hsecond, hresult⟩

/-- Settles O28: the store leaves the registers, so the load computes the same address and reads the stored word. -/
theorem loadAfterStoreGivesStoredWord : Obligations.LoadAfterStoreGivesStoredWord := by
  unfold Obligations.LoadAfterStoreGivesStoredWord
  intro t base off d b v m ht hb hlegal hwf hd
  obtain ⟨-, hstore, -, -⟩ := stStoresRegister
  obtain ⟨u, hst, hword, -, hregs, -, hcfg, -⟩ := hstore t base off b v m ht hb hlegal hwf
  have hbase : u.getValue base = .ok b := (hregs base).trans hb
  obtain ⟨p, hld, hp, -⟩ := loadWord_next (.ld d base off) d base off (fun w => w) b v u hd hbase hword
  obtain ⟨q, hloaded, hq, -⟩ := loadWord_next (.loaded d base off) d base off (· ||| 0x80000000) b v u hd hbase hword
  rw [landed_congr hcfg] at hp hq
  exact ⟨u, hst, ⟨p, hld, hp⟩, q, hloaded, hq⟩

end Sys2Proof.Machine

/-! Proofs of the rules about all instructions. -/

namespace Sys2Proof.Machine

/-! ### Register operands (30_encoding.md R64, 60_exceptions.md R111) -/

/-- Settles O29: every instruction checks its register operands before it does anything else. -/
theorem badRegistersAlwaysRejected : Obligations.BadRegistersAlwaysRejected := by
  unfold Obligations.BadRegistersAlwaysRejected
  exact rejectsBadRegisters

theorem registers_all_of_wellFormed {i : Instr} (h : i.wellFormed = true) : i.registers.all isRegIndex = true := by
  cases i <;> simp_all [Instr.wellFormed, Instr.registers]

/-- A well-formed instruction fails by its address only. -/
theorem Ending.failed_of_wellFormed {i : Instr} {m : State} {f : Failure} (h : Ending i m (.failed f))
    (hwf : i.wellFormed = true) :
    ∃ (q p : RegIdx) (off : Int), accessOf i = some (((q : Nat) : Int), ((p : Nat) : Int), off) ∧
      legalWord m.cfg (effectiveAddress (m.readReg p) off).toNat = false ∧
      f = .addressError (effectiveAddress (m.readReg p) off) := by
  cases h with
  | badRegister hbad => exact nomatch (registers_all_of_wellFormed hwf).symm.trans hbad
  | badAddress q p off hacc hbad => exact ⟨q, p, off, hacc, hbad, rfl⟩

/-- Settles O30: a decoded instruction is well formed, so no register check of it fails and the only cause it can
write is AddressError. -/
theorem decodedRegistersInRange : Obligations.DecodedRegistersInRange := by
  unfold Obligations.DecodedRegistersInRange
  intro w i hdecode
  obtain ⟨hwf, -⟩ := wellFormed_encode_of_decode hdecode
  refine ⟨List.all_eq_true.1 (registers_all_of_wellFormed hwf), fun m u hexec hcause => ?_⟩
  obtain ⟨m', request, hend, rfl⟩ | ⟨f, hend, rfl⟩ := exec_ending hexec
  · obtain ⟨-, hsame, -⟩ := hend.completed_sameRecord
    rwa [State.sequence_cause, hsame]
  · obtain ⟨q, p, off, -, -, rfl⟩ := hend.failed_of_wellFormed hwf
    nofun

/-! ### Frames (10_state.md R15) -/

theorem Ending.completed_cfg {i : Instr} {m m' : State} {request : Option Int}
    (h : Ending i m (.completed m' request)) : m'.cfg = m.cfg := by
  cases h with
  | register r v hd => exact State.writeReg_cfg m r v
  | store | branch => rfl

/-- Only ST writes the memory. -/
theorem Ending.completed_mem {i : Instr} {m m' : State} {request : Option Int}
    (h : Ending i m (.completed m' request)) (hst : ∀ t base off, i ≠ .st t base off) : m'.mem = m.mem := by
  cases h with
  | register r v hd => exact State.writeReg_mem m r v
  | store q p off hi => exact absurd hi (hst _ _ off)
  | branch => rfl

/-- Settles O31: the failures of a well-formed instruction are those of an access, and what completes leaves the
record, the configuration and, ST apart, the memory. -/
theorem otherInstructionsNeverFail : Obligations.OtherInstructionsNeverFail := by
  unfold Obligations.OtherInstructionsNeverFail
  intro i m hwf hacc
  have hst : ∀ t base off, i ≠ .st t base off := by
    rintro t base off rfl
    cases hacc
  obtain ⟨u, hexec⟩ := exec_next i m
  refine ⟨u, hexec, ?_⟩
  obtain ⟨m', request, hend, rfl⟩ | ⟨f, hend, rfl⟩ := exec_ending hexec
  · exact ⟨hend.completed_sameRecord, fun a => congrArg (·.readByte a) (hend.completed_mem hst), hend.completed_cfg⟩
  · obtain ⟨q, p, off, hsome, -, -⟩ := hend.failed_of_wellFormed hwf
    exact nomatch hacc.symm.trans hsome

theorem Ending.completed_getValue {i : Instr} {m m' : State} {request : Option Int}
    (h : Ending i m (.completed m' request)) {n : Int} (hn : destOf i ≠ some n) :
    m'.getValue n = m.getValue n := by
  cases h with
  | register r v hd => exact getValue_writeReg_other m r v n fun heq => hn (heq ▸ hd)
  | store | branch => exact getValue_congr rfl rfl n

/-- ST writes the word at its own effective address only (41_load_store.md R82). -/
theorem Ending.completed_sameMemoryBut {t base off : Int} {b : Word} {m m' : State} {request : Option Int}
    (h : Ending (.st t base off) m (.completed m' request)) (hwf : m.mem.wf = true) (hb : m.getValue base = .ok b) :
    SameMemoryBut m m' (effectiveAddress b off).toNat := by
  cases h with
  | register r v hd => cases hd
  | branch q p target hi => cases hi
  | store q p off' hi hlegal =>
    cases hi
    rw [getValue_natCast] at hb
    cases hb
    exact withMem_writeWord_sameMemoryBut _ _ _ hwf

/-- Settles O34: a completed instruction has one of three effects, each with its frame, and sequencing writes the pc
only; fault entry writes the record only. -/
theorem everyInstructionKeepsItsFrame : Obligations.EveryInstructionKeepsItsFrame := by
  unfold Obligations.EveryInstructionKeepsItsFrame
  intro i m u hwf hexec
  obtain ⟨m', request, hend, rfl⟩ | ⟨f, hend, rfl⟩ := exec_ending hexec
  · obtain ⟨hregs, -, -, -⟩ := sequence_frame m' request
    refine ⟨hend.completed_cfg, fun n hn => (hregs n).trans (hend.completed_getValue hn), fun hst a => ?_, ?_,
      .inl hend.completed_sameRecord⟩
    · rw [State.sequence_mem, hend.completed_mem hst]
    · rintro t base off b rfl hb
      exact hend.completed_sameMemoryBut hwf hb
  · obtain ⟨-, -, -, -, -, -, hregs, hmem, hcfg⟩ := faultEntered_enterFault m f (instructionWord i)
    exact ⟨hcfg, fun n _ => hregs n, fun _ => hmem, fun _ _ _ _ _ _ a _ => hmem a,
      .inr ⟨_, _, _, faultEntered_enterFault m f (instructionWord i)⟩⟩

theorem exec_cfg {i : Instr} {m u : State} (h : exec i m = .next u) : u.cfg = m.cfg := by
  obtain ⟨m', request, hend, rfl⟩ | ⟨f, -, rfl⟩ := exec_ending h
  · exact hend.completed_cfg
  · rfl

theorem step_cfg {m u : State} (h : step m = .next u) : u.cfg = m.cfg := by
  obtain ⟨-, hend⟩ := step_ending h
  cases hend with
  | ends | noFetch | illegal => rfl
  | runs w i _ _ _ _ hexec => exact exec_cfg hexec

/-- Settles O41: fetch reads the configuration only, and no way a step can end writes it. -/
theorem stepsKeepProgramStore : Obligations.StepsKeepProgramStore := by
  unfold Obligations.StepsKeepProgramStore
  exact fun m u hstep => ⟨step_cfg hstep, fun pc => congrArg (fetch · pc) (step_cfg hstep)⟩

/-! ### One instruction in two states -/

/-- How one instruction ends in two states in which it reads the same: with the same write, the same request or
the same failure. -/
inductive PairedEnding (i : Instr) (m n : State) : ExecutionOutcome → ExecutionOutcome → Prop where
  | register (r : RegIdx) (v : Word) (hd : destOf i = some ((r : Nat) : Int)) :
    PairedEnding i m n (.completed (m.writeReg r v) none) (.completed (n.writeReg r v) none)
  | store (addr v : Word) (hd : destOf i = none) (hm : legalWord m.cfg addr.toNat = true)
    (hn : legalWord n.cfg addr.toNat = true) :
    PairedEnding i m n (.completed (m.withMem (m.mem.writeWord m.cfg.byteOrder addr.toNat v)) none)
      (.completed (n.withMem (n.mem.writeWord n.cfg.byteOrder addr.toNat v)) none)
  | branch (request : Option Int) (hd : destOf i = none) :
    PairedEnding i m n (.completed m request) (.completed n request)
  | failed (f : Failure) : PairedEnding i m n (.failed f) (.failed f)

theorem withRegs2_paired {i : Instr} {m n : State} {a b : Int} {run run' : RegIdx → RegIdx → ExecutionOutcome}
    (h : ∀ q p : RegIdx, a = (q : Nat) → b = (p : Nat) → PairedEnding i m n (run q p) (run' q p)) :
    PairedEnding i m n (withRegs2 i a b run) (withRegs2 i a b run') := by
  cases hab : (isRegIndex a && isRegIndex b) with
  | false =>
    rw [withRegs2_bad _ _ _ _ hab, withRegs2_bad _ _ _ _ hab]
    exact .failed _
  | true =>
    obtain ⟨ha, hb⟩ := Bool.and_eq_true_iff.1 hab
    obtain ⟨q, -, rfl⟩ := toRegIdx?_of_isRegIndex ha
    obtain ⟨p, -, rfl⟩ := toRegIdx?_of_isRegIndex hb
    rw [withRegs2_ok, withRegs2_ok]
    exact h q p rfl rfl

theorem readReg_eq_of_getValue_eq {m n : State} {r : RegIdx}
    (h : n.getValue ((r : Nat) : Int) = m.getValue ((r : Nat) : Int)) : n.readReg r = m.readReg r := by
  rw [getValue_natCast, getValue_natCast] at h
  exact Except.ok.inj h

theorem regReg_paired {i : Instr} {d s t : Int} (f : Word → Word → Word) {m n : State} (hd : destOf i = some d)
    (hs : n.getValue s = m.getValue s) (ht : n.getValue t = m.getValue t) :
    PairedEnding i m n (regReg i d s t f m) (regReg i d s t f n) := by
  cases h : (isRegIndex d && isRegIndex s && isRegIndex t) with
  | false =>
    rw [regReg, regReg, withRegs3_bad _ _ _ _ _ h, withRegs3_bad _ _ _ _ _ h]
    exact .failed _
  | true =>
    obtain ⟨hds, hit⟩ := Bool.and_eq_true_iff.1 h
    obtain ⟨hid, his⟩ := Bool.and_eq_true_iff.1 hds
    obtain ⟨r, -, rfl⟩ := toRegIdx?_of_isRegIndex hid
    obtain ⟨q, -, rfl⟩ := toRegIdx?_of_isRegIndex his
    obtain ⟨p, -, rfl⟩ := toRegIdx?_of_isRegIndex hit
    rw [regReg, regReg, withRegs3_ok, withRegs3_ok, readReg_eq_of_getValue_eq hs, readReg_eq_of_getValue_eq ht]
    exact .register r _ hd

theorem regOne_paired {i : Instr} {d s : Int} (f : Word → Word) {m n : State} (hd : destOf i = some d)
    (hs : n.getValue s = m.getValue s) : PairedEnding i m n (regOne i d s f m) (regOne i d s f n) := by
  refine withRegs2_paired fun r q hr hq => ?_
  subst hr hq
  rw [readReg_eq_of_getValue_eq hs]
  exact .register r _ hd

theorem loadWord_paired {i : Instr} {t base off : Int} (f : Word → Word) {m n : State} (hd : destOf i = some t)
    (hb : n.getValue base = m.getValue base) (hword : ∀ addr, n.getWord addr = m.getWord addr) :
    PairedEnding i m n (loadWord i t base off f m) (loadWord i t base off f n) := by
  refine withRegs2_paired fun r p hr hp => ?_
  subst hr hp
  rw [readReg_eq_of_getValue_eq hb, hword]
  cases m.getWord (effectiveAddress (m.readReg p) off) with
  | ok v => exact .register r _ hd
  | error f => exact .failed f

theorem legalWord_iff_getWord_ok (m : State) (addr : Word) :
    legalWord m.cfg addr.toNat = true ↔ ∃ v, m.getWord addr = .ok v := by
  cases hl : legalWord m.cfg addr.toNat with
  | true => simp [getWord_legal hl]
  | false => simp [getWord_illegal hl]

theorem legalWord_eq_of_getWord_eq {m n : State} {addr : Word} (h : n.getWord addr = m.getWord addr) :
    legalWord n.cfg addr.toNat = legalWord m.cfg addr.toNat := by
  rw [Bool.eq_iff_iff, legalWord_iff_getWord_ok, legalWord_iff_getWord_ok, h]

theorem semSt_paired {t base off : Int} {m n : State} (hb : n.getValue base = m.getValue base)
    (ht : n.getValue t = m.getValue t) (hword : ∀ addr, n.getWord addr = m.getWord addr) :
    PairedEnding (.st t base off) m n (semSt t base off m) (semSt t base off n) := by
  refine withRegs2_paired fun q p hq hp => ?_
  subst hq hp
  have hlegal := legalWord_eq_of_getWord_eq (hword (effectiveAddress (m.readReg p) off))
  rw [readReg_eq_of_getValue_eq hb, readReg_eq_of_getValue_eq ht]
  cases hm : legalWord m.cfg (effectiveAddress (m.readReg p) off).toNat with
  | true =>
    rw [setWord_legal _ hm, setWord_legal _ (hlegal.trans hm)]
    exact .store _ _ rfl hm (hlegal.trans hm)
  | false =>
    rw [setWord_illegal _ hm, setWord_illegal _ (hlegal.trans hm)]
    exact .failed _

theorem semBeq_paired {s t target : Int} {m n : State} (hs : n.getValue s = m.getValue s)
    (ht : n.getValue t = m.getValue t) :
    PairedEnding (.beq s t target) m n (semBeq s t target m) (semBeq s t target n) := by
  refine withRegs2_paired fun q p hq hp => ?_
  subst hq hp
  rw [readReg_eq_of_getValue_eq hs, readReg_eq_of_getValue_eq ht]
  exact .branch _ rfl

theorem semGrub_paired {t imm16 : Int} {m n : State} :
    PairedEnding (.grub t imm16) m n (semGrub t imm16 m) (semGrub t imm16 n) := by
  cases h : isRegIndex t with
  | false =>
    rw [semGrub, semGrub, withRegs1_bad _ _ _ h, withRegs1_bad _ _ _ h]
    exact .failed _
  | true =>
    obtain ⟨r, -, rfl⟩ := toRegIdx?_of_isRegIndex h
    rw [semGrub, semGrub, withRegs1_ok, withRegs1_ok]
    exact .register r _ rfl

/-- An instruction reads its sources and the words of memory, and nothing else (10_state.md R15). -/
theorem perform_paired {i : Instr} {m n : State} (hsource : ∀ k ∈ sourcesOf i, n.getValue k = m.getValue k)
    (hword : ∀ addr, n.getWord addr = m.getWord addr) : PairedEnding i m n (perform i m) (perform i n) := by
  cases i with
  | add d s t | sub d s t | and d s t | or d s t | xor d s t =>
    exact regReg_paired _ rfl (hsource s (by simp [sourcesOf])) (hsource t (by simp [sourcesOf]))
  | addi t s imm16 => exact regOne_paired (· + sext32 imm16) rfl (hsource s (by simp [sourcesOf]))
  | tripled d s => exact regOne_paired (· * 3) rfl (hsource s (by simp [sourcesOf]))
  | deep d s | prim d s => exact regOne_paired _ rfl (hsource s (by simp [sourcesOf]))
  | ld t base off | loaded t base off => exact loadWord_paired _ rfl (hsource base (by simp [sourcesOf])) hword
  | st t base off =>
    exact semSt_paired (hsource base (by simp [sourcesOf])) (hsource t (by simp [sourcesOf])) hword
  | beq s t target => exact semBeq_paired (hsource s (by simp [sourcesOf])) (hsource t (by simp [sourcesOf]))
  | grub t imm16 => exact semGrub_paired

/-- A paired completion leaves the same memory and the same value in the destination. -/
theorem PairedEnding.same_result {i : Instr} {m n m' n' : State} {request request' : Option Int}
    (h : PairedEnding i m n (.completed m' request) (.completed n' request')) (hcfg : n.cfg = m.cfg)
    (hmem : n.mem = m.mem) : n'.mem = m'.mem ∧ ∀ d, destOf i = some d → n'.getValue d = m'.getValue d := by
  cases h with
  | register r v hd =>
    refine ⟨by simpa using hmem, fun d hdest => ?_⟩
    obtain rfl : ((r : Nat) : Int) = d := Option.some.inj (hd.symm.trans hdest)
    rw [getValue_writeReg_same, getValue_writeReg_same, hcfg]
  | store addr v hd => exact ⟨by simp [hcfg, hmem], fun d hdest => nomatch hd.symm.trans hdest⟩
  | branch request hd => exact ⟨hmem, fun d hdest => nomatch hd.symm.trans hdest⟩

/-- An instruction that ends RUNNING has completed. -/
theorem exec_running {i : Instr} {m u : State} (h : exec i m = .next u) (hu : u.status = .running) :
    ∃ m' request, perform i m = .completed m' request ∧ u = m'.sequence request := by
  rw [exec_eq_conclude] at h
  cases hperform : perform i m with
  | completed m' request => rw [hperform] at h; cases h; exact ⟨m', request, rfl, rfl⟩
  | failed f => rw [hperform] at h; cases h; cases hu

/-- Settles O35: the two executions end in the same way, and the sequencing that follows writes the pc only. -/
theorem resultUsesOnlySources : Obligations.ResultUsesOnlySources := by
  unfold Obligations.ResultUsesOnlySources
  intro i m n u u' _ hcfg hmem hsource hexec hexec' hu hu'
  obtain ⟨m', request, hperform, rfl⟩ := exec_running hexec hu
  obtain ⟨n', request', hperform', rfl⟩ := exec_running hexec' hu'
  have hpair := perform_paired hsource (getWord_congr hcfg hmem)
  rw [hperform, hperform'] at hpair
  obtain ⟨hsame, hdest⟩ := hpair.same_result hcfg hmem
  refine ⟨hsame, fun d hd => ?_⟩
  obtain ⟨hregs, -⟩ := sequence_frame m' request
  obtain ⟨hregs', -⟩ := sequence_frame n' request'
  rw [hregs, hregs', hdest d hd]

end Sys2Proof.Machine

/-! Proofs about the invariant and the byte order. -/

namespace Sys2Proof.Machine

/-! ### The invariant, part by part -/

theorem recordFits_running {m : State} (h : m.status = .running) : recordFits m ↔ recordClear m := by
  rw [recordFits, h]

theorem memInExtent_writeWord {m : State} {a : Nat} (v : Word) (h : memInExtent m) (hl : legalWord m.cfg a = true) :
    memInExtent (m.withMem (m.mem.writeWord m.cfg.byteOrder a v)) := by
  obtain ⟨-, hlow, hhigh⟩ := (legalWord_iff m.cfg a).1 hl
  intro c hc
  obtain hc | ⟨hfrom, hto⟩ := Memory.mem_writeWord _ _ _ _ c hc
  · exact h c hc
  · simp only [State.withMem_cfg]
    omega

/-- Whatever a completed instruction writes, the memory stays canonical and inside the extent. -/
theorem Ending.completed_memory {i : Instr} {m m' : State} {request : Option Int}
    (h : Ending i m (.completed m' request)) (hwf : m.mem.wf = true) (hext : memInExtent m) :
    m'.mem.wf = true ∧ memInExtent m' := by
  cases h with
  | register r v hd =>
    rw [memInExtent, State.writeReg_mem, State.writeReg_cfg]
    exact ⟨hwf, hext⟩
  | store q p off hi hl => exact ⟨Memory.writeWord_wf _ _ _ _ hwf, memInExtent_writeWord _ hext hl⟩
  | branch => exact ⟨hwf, hext⟩

/-- A register write leaves a hardwired register 0 alone (10_state.md R13). -/
theorem writeReg_zero_of_hardwired {m : State} (r : RegIdx) (v : Word) (hhard : m.cfg.r0Hardwired = true) :
    (m.writeReg r v).regs[0] = m.regs[0] := by
  by_cases hr : r = 0
  · rw [hr, writeReg_discarded m v hhard]
  · have hne : (r : Nat) ≠ 0 := fun h => hr (Fin.ext h)
    simp [State.writeReg, hr, Vector.getElem_set_ne _ _ hne]

theorem Ending.completed_regs_zero {i : Instr} {m m' : State} {request : Option Int}
    (h : Ending i m (.completed m' request)) (hhard : m.cfg.r0Hardwired = true) : m'.regs[0] = m.regs[0] := by
  cases h with
  | register r v hd => exact writeReg_zero_of_hardwired r v hhard
  | store | branch => rfl

theorem recordClear_of_sameRecord {m u : State} (h : SameRecord m u) (hclear : recordClear m) : recordClear u := by
  obtain ⟨-, hcause, haddr, hinst, hepc⟩ := h
  rwa [recordClear, hcause, haddr, hinst, hepc]

/-! ### The invariant, way by way -/

/-- Fault entry keeps all but the record, and the record fits where the failure describes the fetch at the pc. -/
theorem inv_enterFault {m : State} {f : Failure} {w : Word} (h : m.Inv) (hrecord : recordFits (m.enterFault f w)) :
    (m.enterFault f w).Inv := by
  obtain ⟨hwf, hext, hpc, hzero, -⟩ := h
  exact ⟨hwf, hext, hpc, hzero, hrecord⟩

theorem inv_halt {m : State} (h : m.Inv) (hrun : m.status = .running) (hend : m.pc.toNat = m.cfg.progEnd) :
    m.halt.Inv := by
  obtain ⟨hwf, hext, hpc, hzero, hrecord⟩ := h
  exact ⟨hwf, hext, hpc, hzero, (recordFits_running hrun).1 hrecord, hend⟩

/-- A completed instruction leaves the record clear, and every pc it is sequenced to is aligned. -/
theorem inv_sequence {i : Instr} {m m' : State} {request : Option Int} (h : m.Inv) (hrun : m.status = .running)
    (hend : Ending i m (.completed m' request)) : (m'.sequence request).Inv := by
  obtain ⟨hwf, hext, hpc, hzero, hrecord⟩ := h
  obtain ⟨hwf', hext'⟩ := hend.completed_memory hwf hext
  obtain ⟨hpc', hstatus⟩ := hend.completed_pc_status
  refine ⟨hwf', hext', ?_, fun hhard => ?_, ?_⟩
  · rw [State.sequence_pc, hpc']
    exact nextPc_aligned m.pc request hpc
  · have hhard' : m.cfg.r0Hardwired = true := hend.completed_cfg ▸ hhard
    exact (hend.completed_regs_zero hhard').trans (hzero hhard')
  · exact (recordFits_running (m := m'.sequence request) (hstatus.trans hrun)).2
      (recordClear_of_sameRecord hend.completed_sameRecord ((recordFits_running hrun).1 hrecord))

/-- The record of a decoded instruction's failure: the word it names is the one at the pc. -/
theorem recordFits_of_decoded_failure {i : Instr} {m : State} {f : Failure} {w : Word}
    (hfetch : fetch m.cfg m.pc = .ok w) (hdecode : decode w = some i) (hend : Ending i m (.failed f)) :
    recordFits (m.enterFault f (instructionWord i)) := by
  obtain ⟨hwf, -⟩ := wellFormed_encode_of_decode hdecode
  obtain ⟨q, p, off, hacc, hbad, rfl⟩ := hend.failed_of_wellFormed hwf
  rw [instructionWord_of_decode hdecode]
  exact ⟨rfl, hfetch, i, q, p, off, m.readReg p, hdecode, hacc, getValue_natCast _ p, rfl, hbad⟩

/-- Settles O43: of each way a step can end, the case above says what it keeps. -/
theorem stepKeepsInv : Obligations.StepKeepsInv := by
  unfold Obligations.StepKeepsInv
  intro m u hinv hstep
  obtain ⟨hrun, hend⟩ := step_ending hstep
  cases hend with
  | ends hpc => exact inv_halt hinv hrun hpc
  | noFetch hpc hfetch => exact inv_enterFault hinv ⟨rfl, rfl, rfl, hpc, hfetch⟩
  | illegal w hpc hfetch hdecode => exact inv_enterFault hinv ⟨rfl, rfl, hfetch, hdecode⟩
  | runs w i _ hpc hfetch hdecode hexec =>
    obtain ⟨m', request, hcompleted, rfl⟩ | ⟨f, hfailed, rfl⟩ := exec_ending hexec
    · exact inv_sequence hinv hrun hcompleted
    · exact inv_enterFault hinv (recordFits_of_decoded_failure hfetch hdecode hfailed)

/-! ### The byte order (20_memory.md R36) -/

/-- A legal word write seen by every checked read: two legal words are the same or share no byte. -/
theorem getWord_withMem_writeWord {m : State} {addr : Word} (v : Word) (hl : legalWord m.cfg addr.toNat = true)
    (hwf : m.mem.wf = true) (a : Word) :
    (m.withMem (m.mem.writeWord m.cfg.byteOrder addr.toNat v)).getWord a =
      if a = addr then .ok v else m.getWord a := by
  split
  · next h => rw [h, getWord_withMem_writeWord_same v hl hwf]
  · next h =>
    cases ha : legalWord m.cfg a.toNat with
    | false => rw [getWord_illegal ha, getWord_illegal (by simpa using ha)]
    | true =>
      have hne : a.toNat ≠ addr.toNat := fun heq => h (BitVec.eq_of_toNat_eq heq)
      obtain ⟨halign, -⟩ := (legalWord_iff m.cfg a.toNat).1 ha
      obtain ⟨halign', -⟩ := (legalWord_iff m.cfg addr.toNat).1 hl
      rw [getWord_legal ha, getWord_legal (by simpa using ha)]
      exact congrArg _ (Memory.readWord_writeWord_other _ _ _ _ _ hwf (by omega))

theorem SameButByteOrder.status_eq {m n : State} (h : SameButByteOrder m n) : n.status = m.status := by
  obtain ⟨-, -, -, ⟨hstatus, -⟩, -⟩ := h
  exact hstatus

theorem SameButByteOrder.pc_eq {m n : State} (h : SameButByteOrder m n) : n.pc = m.pc := by
  obtain ⟨-, -, hpc, -⟩ := h
  exact hpc

theorem SameButByteOrder.getWord_eq {m n : State} (h : SameButByteOrder m n) (addr : Word) :
    n.getWord addr = m.getWord addr := by
  obtain ⟨-, -, -, -, hword⟩ := h
  exact hword addr

theorem SameButByteOrder.getValue_eq {m n : State} (h : SameButByteOrder m n) (k : Int) :
    n.getValue k = m.getValue k := by
  obtain ⟨hcfg, hregs, -⟩ := h
  have hread (r : RegIdx) : n.readReg r = m.readReg r := by rw [State.readReg, State.readReg, hcfg, hregs]
  simp only [State.getValue, hread]

theorem SameButByteOrder.fetch_eq {m n : State} (h : SameButByteOrder m n) :
    fetch n.cfg n.pc = fetch m.cfg m.pc := by
  obtain ⟨hcfg, -, hpc, -⟩ := h
  rw [hcfg, hpc]
  rfl

theorem SameButByteOrder.progEnd_eq {m n : State} (h : SameButByteOrder m n) : n.cfg.progEnd = m.cfg.progEnd := by
  obtain ⟨hcfg, -⟩ := h
  rw [hcfg]
  rfl

theorem SameButByteOrder.writeReg {m n : State} (h : SameButByteOrder m n) (r : RegIdx) (v : Word) :
    SameButByteOrder (m.writeReg r v) (n.writeReg r v) := by
  obtain ⟨hcfg, hregs, hpc, hrecord, hword⟩ := h
  have hregs' : (n.writeReg r v).regs = (m.writeReg r v).regs := by
    have hhard : n.cfg.r0Hardwired = m.cfg.r0Hardwired := by rw [hcfg]
    unfold State.writeReg
    rw [hhard]
    split
    · exact hregs
    · simp only [hregs]
  refine ⟨by simpa using hcfg, hregs', by simpa using hpc, by simpa [SameRecord] using hrecord, fun a => ?_⟩
  rw [getWord_congr (State.writeReg_cfg n r v) (State.writeReg_mem n r v),
    getWord_congr (State.writeReg_cfg m r v) (State.writeReg_mem m r v), hword]

theorem SameButByteOrder.writeWord {m n : State} (h : SameButByteOrder m n) {addr : Word} (v : Word)
    (hm : legalWord m.cfg addr.toNat = true) (hn : legalWord n.cfg addr.toNat = true) (hwf : m.mem.wf = true)
    (hwf' : n.mem.wf = true) :
    SameButByteOrder (m.withMem (m.mem.writeWord m.cfg.byteOrder addr.toNat v))
      (n.withMem (n.mem.writeWord n.cfg.byteOrder addr.toNat v)) := by
  obtain ⟨hcfg, hregs, hpc, hrecord, hword⟩ := h
  refine ⟨hcfg, hregs, hpc, hrecord, fun a => ?_⟩
  rw [getWord_withMem_writeWord v hm hwf, getWord_withMem_writeWord v hn hwf', hword]

theorem SameButByteOrder.sequence {m n : State} (h : SameButByteOrder m n) (request : Option Int) :
    SameButByteOrder (m.sequence request) (n.sequence request) := by
  obtain ⟨hcfg, hregs, hpc, hrecord, hword⟩ := h
  exact ⟨hcfg, hregs, congrArg (nextPc · request) hpc, hrecord, hword⟩

theorem SameButByteOrder.halt {m n : State} (h : SameButByteOrder m n) : SameButByteOrder m.halt n.halt := by
  obtain ⟨hcfg, hregs, hpc, ⟨-, hrecord⟩, hword⟩ := h
  exact ⟨hcfg, hregs, hpc, ⟨rfl, hrecord⟩, hword⟩

theorem SameButByteOrder.enterFault {m n : State} (h : SameButByteOrder m n) (f : Failure) (w : Word) :
    SameButByteOrder (m.enterFault f w) (n.enterFault f w) := by
  obtain ⟨hcfg, hregs, hpc, -, hword⟩ := h
  exact ⟨hcfg, hregs, hpc, ⟨rfl, rfl, rfl, rfl, hpc⟩, hword⟩

/-- Both states conclude a paired ending alike. -/
theorem PairedEnding.conclude_next {i : Instr} {m n : State} {o o' : ExecutionOutcome} (h : PairedEnding i m n o o')
    (hsame : SameButByteOrder m n) (hwf : m.mem.wf = true) (hwf' : n.mem.wf = true) {u : State}
    (hu : conclude i m o = .next u) :
    ∃ u', conclude i n o' = .next u' ∧ SameButByteOrder u u' := by
  cases h with
  | register r v => cases hu; exact ⟨_, rfl, (hsame.writeReg r v).sequence none⟩
  | store addr v hd hm hn => cases hu; exact ⟨_, rfl, (hsame.writeWord v hm hn hwf hwf').sequence none⟩
  | branch request => cases hu; exact ⟨_, rfl, hsame.sequence request⟩
  | failed f => cases hu; exact ⟨_, rfl, hsame.enterFault f _⟩

theorem SameButByteOrder.exec_next {m n : State} (h : SameButByteOrder m n) (hwf : m.mem.wf = true)
    (hwf' : n.mem.wf = true) {i : Instr} {u : State} (hexec : exec i m = .next u) :
    ∃ u', exec i n = .next u' ∧ SameButByteOrder u u' := by
  rw [exec_eq_conclude] at hexec ⊢
  exact (perform_paired (fun k _ => h.getValue_eq k) h.getWord_eq).conclude_next h hwf hwf' hexec

/-- The four ways of a step, taken by both states: all that chooses between them is the status, the pc and the
program store. -/
theorem SameButByteOrder.step_next {m n : State} (h : SameButByteOrder m n) (hwf : m.mem.wf = true)
    (hwf' : n.mem.wf = true) {u : State} (hstep : step m = .next u) :
    ∃ u', step n = .next u' ∧ SameButByteOrder u u' := by
  obtain ⟨hrun, hend⟩ := step_ending hstep
  have hrun' : n.status = .running := h.status_eq.trans hrun
  cases hend with
  | ends hpc => exact ⟨_, step_atEnd hrun' (by rw [h.pc_eq, hpc, h.progEnd_eq]), h.halt⟩
  | noFetch hpc hfetch =>
    exact ⟨_, step_fetchError hrun' (by rwa [h.pc_eq, h.progEnd_eq]) (h.fetch_eq.trans hfetch), h.enterFault _ _⟩
  | illegal w hpc hfetch hdecode =>
    exact ⟨_, step_illegal hrun' (by rwa [h.pc_eq, h.progEnd_eq]) (h.fetch_eq.trans hfetch) hdecode, h.enterFault _ _⟩
  | runs w i _ hpc hfetch hdecode hexec =>
    rw [step_runs hrun' (by rwa [h.pc_eq, h.progEnd_eq]) (h.fetch_eq.trans hfetch) hdecode]
    exact h.exec_next hwf hwf' hexec

/-- A step stops with what the stop check answers, which looks at the status only. -/
theorem step_fault_iff {m : State} {f : Fault} : step m = .fault f ↔ m.stopped = some f := by
  cases hs : m.status with
  | halted => simp [step_halted hs, State.stopped, hs]
  | faulted => simp [step_faulted hs, State.stopped, hs]
  | running =>
    obtain ⟨u, hu⟩ := step_next_of_running hs
    simp [hu, stopped_of_running hs]

/-- Settles O47: an instruction reads words, not bytes, so it ends alike in both states, and a word written is read
back in either order. -/
theorem byteOrderIsInvisible : Obligations.ByteOrderIsInvisible := by
  unfold Obligations.ByteOrderIsInvisible
  refine fun m n hwf hwf' h => ⟨fun f => ?_, fun u hstep => h.step_next hwf hwf' hstep⟩
  rw [step_fault_iff, step_fault_iff, State.stopped, State.stopped, h.status_eq]

end Sys2Proof.Machine

/-! Proofs about reset, the placed word and the operand-level drive (70_reset_and_hazards.md). -/

namespace Sys2Proof.Machine

/-! ### The data memory after reset (10_state.md R26) -/

/-- The list of pairs is loaded last pair first, and a pair at an illegal address is left out. -/
theorem initialMemory_cons (c : RunConfig) (p : Nat × Word) (l : List (Nat × Word)) :
    initialMemory { c with memInit := p :: l } =
      if legalWord c p.1 then (initialMemory { c with memInit := l }).writeWord c.byteOrder p.1 p.2
      else initialMemory { c with memInit := l } := rfl

theorem initialMemory_wf (c : RunConfig) : (initialMemory c).wf = true := by
  suffices h : ∀ l, (initialMemory { c with memInit := l }).wf = true from h c.memInit
  intro l
  induction l with
  | nil => rfl
  | cons p rest ih =>
    rw [initialMemory_cons]
    split
    · exact Memory.writeWord_wf _ _ _ _ ih
    · exact ih

theorem memInExtent_hostReset (c : RunConfig) : memInExtent (hostReset c) := by
  suffices h : ∀ l, memInExtent ((hostReset c).withMem (initialMemory { c with memInit := l })) from h c.memInit
  intro l
  induction l with
  | nil => nofun
  | cons p rest ih =>
    rw [initialMemory_cons]
    split
    · next hl => exact memInExtent_writeWord p.2 ih hl
    · exact ih

theorem memInitWord_cons (c : RunConfig) (p : Nat × Word) (l : List (Nat × Word)) (a : Nat) :
    memInitWord { c with memInit := p :: l } a =
      if p.1 = a then p.2 else memInitWord { c with memInit := l } a := by
  by_cases h : p.1 = a <;> simp [memInitWord, h]

theorem Memory.readWord_nil (o : ByteOrder) (a : Nat) : Memory.readWord [] o a = 0 := by
  cases o <;> simp [Memory.readWord, bytesWord, Memory.readByte]

/-- Every legal word is `MEM_INIT`'s: a pair of another legal address shares no byte with it. -/
theorem readWord_initialMemory (c : RunConfig) {a : Nat} (ha : legalWord c a = true) :
    (initialMemory c).readWord c.byteOrder a = memInitWord c a := by
  suffices h : ∀ l, (initialMemory { c with memInit := l }).readWord c.byteOrder a =
      memInitWord { c with memInit := l } a from h c.memInit
  intro l
  induction l with
  | nil => exact Memory.readWord_nil c.byteOrder a
  | cons p rest ih =>
    have hwf := initialMemory_wf { c with memInit := rest }
    rw [initialMemory_cons, memInitWord_cons]
    by_cases hpa : p.1 = a
    · rw [hpa, if_pos ha, if_pos rfl, Memory.readWord_writeWord_same _ _ _ _ hwf]
    · rw [if_neg hpa, ← ih]
      split
      · next hp =>
        obtain ⟨halign, -⟩ := (legalWord_iff c a).1 ha
        obtain ⟨halign', -⟩ := (legalWord_iff c p.1).1 hp
        exact Memory.readWord_writeWord_other _ _ _ _ _ hwf (by omega)
      · rfl

/-! ### The registers after reset (10_state.md R26) -/

theorem initialRegs_zero {c : RunConfig} (h : c.r0Hardwired = true) : (initialRegs c)[0] = 0 := by
  simp [initialRegs, h]

theorem readReg_hostReset (c : RunConfig) (r : RegIdx) :
    (hostReset c).readReg r = if c.r0Hardwired = true ∧ r = 0 then 0 else c.regReset[r] := by
  unfold State.readReg hostReset initialRegs
  by_cases hhard : c.r0Hardwired = true
  · by_cases hr : r = 0
    · simp [hhard, hr]
    · have hne : 0 ≠ (r : Nat) := fun h => hr (Fin.ext h.symm)
      simp [hhard, hr, Vector.getElem_set_ne _ _ hne]
  · simp [hhard]

/-! ### Reset (R130, R131) -/

theorem runConfig_wf_iff (c : RunConfig) :
    c.wf = true ↔ c.memBase % 4 = 0 ∧ c.memSize % 4 = 0 ∧ c.memBase + c.memSize ≤ 2 ^ 32 ∧
      c.progBase.toNat % 4 = 0 ∧ c.progEnd < 2 ^ 32 := by
  simp [RunConfig.wf, and_assoc]

/-- Settles O45: the memory is built by legal word writes, `PROG_BASE` is aligned and the record is clear. -/
theorem hostResetMeetsInv : Obligations.HostResetMeetsInv := by
  unfold Obligations.HostResetMeetsInv
  intro c hwf
  obtain ⟨-, -, -, hbase, -⟩ := (runConfig_wf_iff c).1 hwf
  exact ⟨initialMemory_wf c, memInExtent_hostReset c, hbase, initialRegs_zero, rfl, rfl, rfl, rfl⟩

/-- Settles O44: `State.reset` is the reset with the example configuration, which is well formed. -/
theorem resetMeetsInv : Obligations.ResetMeetsInv := by
  unfold Obligations.ResetMeetsInv
  have hreset : State.reset = hostReset RunConfig.exampleEmpty := rfl
  rw [hreset]
  exact hostResetMeetsInv RunConfig.exampleEmpty (by decide)

/-- The word at an aligned place inside the store is the one listed there (42_branch_pc.md R97). -/
theorem fetch_of_getElem? {c : RunConfig} {pc w : Word} (halign : pc.toNat % 4 = 0)
    (hbase : c.progBase.toNat ≤ pc.toNat) (hword : c.prog[(pc.toNat - c.progBase.toNat) / 4]? = some w) :
    pc.toNat ≠ c.progEnd ∧ fetch c pc = .ok w := by
  obtain ⟨hindex, -⟩ := List.getElem?_eq_some_iff.1 hword
  have hend : pc.toNat < c.progEnd := by
    rw [RunConfig.progEnd]
    omega
  refine ⟨hend.ne, ?_⟩
  rw [fetch_inside halign hbase hend, List.getD_eq_getElem?_getD, hword, Option.getD_some]

/-- Settles O46: the value clauses are those of the registers and the memory after reset, and the word at `PROG_BASE`
is the store's first. -/
theorem hostResetInstallsValues : Obligations.HostResetInstallsValues := by
  unfold Obligations.HostResetInstallsValues
  intro c
  refine ⟨fun r => ?_, rfl, fun a ha => ?_, rfl, ⟨rfl, rfl, rfl, rfl⟩, rfl, fun w rest i hwf hprog hdecode => ?_⟩
  · rw [getValue_natCast, readReg_hostReset]
  · rw [getWord_legal ha]
    exact congrArg _ (readWord_initialMemory c ha)
  · obtain ⟨-, -, -, hbase, -⟩ := (runConfig_wf_iff c).1 hwf
    obtain ⟨hpc, hfetch⟩ := fetch_of_getElem? (w := w) hbase le_rfl (by simp [hprog])
    exact step_runs rfl hpc hfetch hdecode

/-! ### The placed word (log 5) -/

theorem ofNat_toNat_mod (w : Word) : BitVec.ofNat 32 (w.toNat % 2 ^ 32) = w := by
  rw [Nat.mod_eq_of_lt w.isLt, BitVec.ofNat_toNat, BitVec.setWidth_eq]

theorem pcInStore_iff (c : RunConfig) (pc : Word) :
    pcInStore c pc = true ↔ pc.toNat % 4 = 0 ∧ c.progBase.toNat % 4 = 0 ∧ c.progBase.toNat ≤ pc.toNat ∧
      pc.toNat ≤ c.progEnd := by
  simp [pcInStore, and_assoc]

/-- In the store or at its end the word is put at the pc's place. -/
theorem placeWord_prog_getElem? {c : RunConfig} {pc : Word} (w : Word) (h : pcInStore c pc = true) :
    (placeWord c pc w).prog[(pc.toNat - c.progBase.toNat) / 4]? = some w := by
  obtain ⟨-, -, -, hend⟩ := (pcInStore_iff c pc).1 h
  rw [RunConfig.progEnd] at hend
  have hlength : (c.prog.take ((pc.toNat - c.progBase.toNat) / 4)).length = (pc.toNat - c.progBase.toNat) / 4 := by
    rw [List.length_take]
    omega
  rw [placeWord, List.append_assoc, List.getElem?_append_right hlength.le, hlength, Nat.sub_self]
  rfl

/-- The placed word is what the next step fetches. -/
theorem fetch_withFetchWord (m : State) (w : Word) :
    (m.withFetchWord 32 w.toNat).pc.toNat ≠ (m.withFetchWord 32 w.toNat).cfg.progEnd ∧
      fetch (m.withFetchWord 32 w.toNat).cfg (m.withFetchWord 32 w.toNat).pc = .ok w := by
  simp only [State.withFetchWord, ofNat_toNat_mod]
  split
  · next h =>
    obtain ⟨halign, -, hbase, -⟩ := (pcInStore_iff m.cfg m.pc).1 h
    exact fetch_of_getElem? (c := placeWord m.cfg m.pc w) halign hbase (placeWord_prog_getElem? w h)
  · have halign : (BitVec.ofNat 32 (m.pc.toNat - m.pc.toNat % 4) : Word).toNat % 4 = 0 := by
      rw [BitVec.toNat_ofNat]
      omega
    exact fetch_of_getElem? halign le_rfl (by simp)

theorem withFetchWord_frame (m : State) (nbits w : Nat) :
    (m.withFetchWord nbits w).status = .running ∧ (m.withFetchWord nbits w).regs = m.regs ∧
      (m.withFetchWord nbits w).mem = m.mem := by
  unfold State.withFetchWord
  split <;> exact ⟨rfl, rfl, rfl⟩

/-- Settles O42: the engine is running and fetches the placed word. -/
theorem placedWordRunsNext : Obligations.PlacedWordRunsNext := by
  unfold Obligations.PlacedWordRunsNext
  intro m w i hdecode
  obtain ⟨hrun, hregs, hmem⟩ := withFetchWord_frame m 32 w.toNat
  obtain ⟨hpc, hfetch⟩ := fetch_withFetchWord m w
  refine ⟨step_runs hrun hpc hfetch hdecode, hregs, hmem, ?_⟩
  rw [decodeTableWord, ofNat_toNat_mod, hdecode]

/-! ### The operand-level drive (R136) -/

theorem drive_completed {i : Instr} {m m' : State} {request : Option Int} (hrun : m.status = .running)
    (h : perform i m = .completed m' request) : drive i m = .next ⟨m', request, none⟩ := by
  simp [drive, stopped_of_running hrun, h]

theorem drive_failed {i : Instr} {m : State} {f : Failure} (hrun : m.status = .running)
    (h : perform i m = .failed f) :
    drive i m = .next ⟨m.enterFault f (Config.wordlessBadInst i), none, some f⟩ := by
  simp [drive, stopped_of_running hrun, h]

theorem perform_beq (q p : RegIdx) (target : Int) (m : State) :
    perform (.beq ((q : Nat) : Int) ((p : Nat) : Int) target) m =
      .completed m (if m.readReg q = m.readReg p then some (branchOperand target) else none) := by
  rw [perform, semBeq, withRegs2_ok]

/-- Settles O48: the drive and the cycle conclude the same outcome of `perform`, the cycle by sequencing, the drive
by handing it over; a failure enters the same fault but for the word. -/
theorem driveRunsRuleWithoutPc : Obligations.DriveRunsRuleWithoutPc := by
  unfold Obligations.DriveRunsRuleWithoutPc
  refine ⟨fun i m hrun => ?_, fun s t target a b m hrun hs ht => ?_⟩
  · have hend := perform_ending i m
    cases hperform : perform i m with
    | completed m' request =>
      rw [hperform] at hend
      obtain ⟨hpc, -⟩ := hend.completed_pc_status
      refine ⟨_, drive_completed hrun hperform, hpc, fun _ => ?_, nofun⟩
      rw [exec_eq_conclude, hperform, conclude_completed]
    | failed f =>
      refine ⟨_, drive_failed hrun hperform, rfl, nofun, ?_⟩
      intro f' hf
      obtain rfl : f = f' := Option.some.inj hf
      refine ⟨rfl, _, ?_, faultEntered_enterFault m f (instructionWord i),
        faultEntered_enterFault m f (Config.wordlessBadInst i)⟩
      rw [exec_eq_conclude, hperform, conclude_failed]
  · obtain ⟨q, rfl, rfl⟩ := (getValue_ok m s a).1 hs
    obtain ⟨p, rfl, rfl⟩ := (getValue_ok m t b).1 ht
    rw [drive_completed hrun (perform_beq q p target m), branchOperand_eq]

end Sys2Proof.Machine
